-- ==== Sys2Proof/Word.lean ====
section
/-! DEFINITION. The widths the spec gives its values (00_scope R6, 30_encoding R45, R57), the direction of a page table
(10_state R20), and a pair of things indexed by direction. -/

namespace Sys2Proof

/-- One byte: a flag register, a backing-store byte, a device answer. -/
abbrev Byte := BitVec 8

/-- A bus address, `ADDRW` = 16 bits (00_scope R6). -/
abbrev Address := BitVec 16

/-- A raw byte pointer or a callback identifier, `PTRW` = 32 bits (00_scope R6). -/
abbrev Pointer := BitVec 32

/-- A device identifier, `DEVW` = 16 bits (00_scope R6). -/
abbrev DeviceId := BitVec 16

/-- A handle as commands and entries carry it, 8 bits (41_memory_arbiter R92). -/
abbrev Handle := BitVec 8

/-- A retained operand of the Flag Evaluator, 18 bits (10_state R12). -/
abbrev Operand := BitVec 18

/-- The command word, `CWW` = 128 bits (30_encoding R45). -/
abbrev CommandWord := BitVec 128

/-- The response word, `RSPW` = 64 bits (30_encoding R57). -/
abbrev ResponseWord := BitVec 64

/-- A page number, `NPAGES` = 64 (00_scope R6). -/
abbrev Page := Fin 64

/-- Which of the two page tables a command addresses: read (0) or write (1) (00_scope R9, 10_state R20). -/
inductive Dir where
  | r
  | w
  deriving DecidableEq, Repr

/-- One thing for the read direction and one for the write direction (10_state R20: each table exists once per direction). -/
structure ByDir (α : Type) where
  r : α
  w : α
  deriving DecidableEq, Repr

/-- The element of direction `d`. -/
def ByDir.get {α : Type} (t : ByDir α) (d : Dir) : α :=
  match d with
  | .r => t.r
  | .w => t.w

/-- `t` with the element of direction `d` replaced. -/
def ByDir.set {α : Type} (t : ByDir α) (d : Dir) (v : α) : ByDir α :=
  match d with
  | .r => { t with r := v }
  | .w => { t with w := v }

end Sys2Proof
end

