-- ==== Sys2Proof/Config.lean ====
section
/-! DEFINITION. The implementation parameters of 00_scope R6 and the values the spec leaves open
(93_implementation_defined U2, U5, U6, U7). -/

namespace Sys2Proof

/-- The parameters that are constants of one machine and that no step changes (00_scope R6, 10_state R28).
`NSLOT`, the third one a model may take as an argument, is the length of the slot table. -/
structure Params where
  /-- `F_RESET`: the flag register after every reset (10_state R16, U2). -/
  fReset : Byte
  /-- `UNDEF_READ`: what a read of an unmapped page returns (20_memory R36, U7). -/
  undefRead : Byte
  deriving DecidableEq, Repr

/-- `NPAGES` (00_scope R6). -/
abbrev Config.numPages : Nat := 64

/-- `NSLOT`'s value on this hardware (00_scope R6); the operations of the model work for any slot table. -/
def Config.nslot : Nat := 8

/-- `INVALID_HANDLE` (00_scope R6, 41_memory_arbiter R92). -/
def Config.invalidHandle : Handle := 0xFF#8

/-- `F_RESET`, one fixed 8-bit constant that the spec leaves open (U2): no value of it can be proved. Log entry 2. -/
opaque Config.fReset : Byte

/-- The parameters of `State.reset`: `F_RESET` open, `UNDEF_READ` = 0xFF (00_scope R6). -/
def Config.params : Params := { fReset := Config.fReset, undefRead := 0xFF#8 }

/-- A backing-store byte that nothing has written, a free value for each pointer (20_memory R32, U5). Log entry 3. -/
opaque Config.bsInitial : Pointer → Byte

/-- The answer of a device that the run's inputs do not give, fresh at each draw (20_memory R33, U6). Log entry 4. -/
opaque Config.devAnswer : Nat → Byte

end Sys2Proof
end

