-- ==== Sys2Proof/Syntax.lean ====
section
/-! DEFINITION. The twelve commands of opcode_table.json (30_encoding R54), each with the fields its format carries
(30_encoding R46 to R52). A field has exactly the width its format gives it, so every term is an encodable command. -/

namespace Sys2Proof

/-- The commands of the block, one constructor per row of the opcode table (30_encoding R54). -/
inductive Instr where
  /-- `FRST`, format `Z`: reset the Flag Evaluator (40 R69). -/
  | frst
  /-- `FREC mask, tag, x, y`, format `FR`: record a flag-affecting operation (40 R70). -/
  | frec (mask : Byte) (wide sub : Bool) (x y : Operand)
  /-- `FGET mask`, format `FM`: read flag bits (40 R71). -/
  | fget (mask : Byte)
  /-- `FSET mask, value`, format `FM`: write flag bits eagerly (40 R72). -/
  | fset (mask value : Byte)
  /-- `MINIT`, format `Z`: initialise the arbiter (41 R95). -/
  | minit
  /-- `MCONN dev, HI|LO`, format `MC`: connect a device (41 R96). -/
  | mconn (high : Bool) (dev : DeviceId)
  /-- `MDISC h`, format `MH`: disconnect a device (41 R97). -/
  | mdisc (handle : Handle)
  /-- `MALLOC h, dir, addr, len, PTR|CB, target, stride`, format `MA`: grant pages (41 R98). -/
  | malloc (handle : Handle) (iscb : Bool) (dir : Dir) (addr : Address) (len : BitVec 24) (target stride : Pointer)
  /-- `MREL h, dir, addr, len`, format `MA`: revoke grants (41 R99). -/
  | mrel (handle : Handle) (dir : Dir) (addr : Address) (len : BitVec 24)
  /-- `MREAD8 addr`, format `MX`: read one byte (41 R100). -/
  | mread8 (addr : Address)
  /-- `MWRITE8 addr, data`, format `MX`: write one byte (41 R101). -/
  | mwrite8 (addr : Address) (data : Byte)
  /-- `MPAGE dir, addr`, format `MX`: report the global entry of one page (41 R104). -/
  | mpage (dir : Dir) (addr : Address)
  deriving DecidableEq, Repr

end Sys2Proof
end

