-- ==== Sys2Proof/Decode.lean ====
section
/-! DEFINITION. The command word: its decoder, total on any 128 bits and rejecting by name (30_encoding R45 to R56), the
encoder, and the machine-readable opcode table (opcode_table.json, 30_encoding R54). -/

namespace Sys2Proof

/-- Why a command word is none of the twelve encodings (30_encoding R55). -/
inductive Reject where
  /-- `OP` is not one of the twelve opcodes. -/
  | undefinedOpcode (op : Byte)
  /-- A bit that the format of this opcode marks "reserved, must be 0" is 1. -/
  | reservedBitSet (op : Byte)
  deriving DecidableEq, Repr

/-- `cw[lo+len-1 : lo]` (00_scope R7). -/
def field (cw : CommandWord) (lo len : Nat) : BitVec len := cw.extractLsb' lo len

/-- A one-bit field as a truth value. -/
def bitField (cw : CommandWord) (i : Nat) : Bool := field cw i 1 == 1#1

/-- The `DIR` field, bit 104: 0 = read table, 1 = write table (30_encoding R51, R52). -/
def dirField (cw : CommandWord) : Dir := if bitField cw 104 then .w else .r

/-- Bits `lo+len-1 : lo` are all 0. -/
def zeroField (cw : CommandWord) (lo len : Nat) : Bool := field cw lo len == 0#len

/-- A word of opcode `op` whose reserved bits are zero iff `ok` stands for `i`; otherwise it is illegal (30_encoding R55). -/
def checked (op : Byte) (ok : Bool) (i : Instr) : Except Reject Instr :=
  if ok then .ok i else .error (.reservedBitSet op)

/-- The decoder: opcode in bits 127:120, fields and reserved bits as the formats of 30_encoding R46 to R52 place them,
no field extended, scaled or shifted (R53), and every other word rejected by name (R55). -/
def decode (cw : CommandWord) : Except Reject Instr :=
  let op := field cw 120 8
  if op = 0x00#8 then checked op (zeroField cw 0 120) .frst
  else if op = 0x01#8 then
    checked op (zeroField cw 106 6 && zeroField cw 50 54 && zeroField cw 18 14)
      (.frec (field cw 112 8) (bitField cw 105) (bitField cw 104) (field cw 32 18) (field cw 0 18))
  else if op = 0x02#8 then checked op (zeroField cw 0 112) (.fget (field cw 112 8))
  else if op = 0x03#8 then checked op (zeroField cw 0 104) (.fset (field cw 112 8) (field cw 104 8))
  else if op = 0x10#8 then checked op (zeroField cw 0 120) .minit
  else if op = 0x11#8 then
    checked op (zeroField cw 105 15 && zeroField cw 0 88) (.mconn (bitField cw 104) (field cw 88 16))
  else if op = 0x12#8 then checked op (zeroField cw 0 112) (.mdisc (field cw 112 8))
  else if op = 0x13#8 then
    checked op (zeroField cw 106 6)
      (.malloc (field cw 112 8) (bitField cw 105) (dirField cw) (field cw 88 16) (field cw 64 24) (field cw 32 32)
        (field cw 0 32))
  else if op = 0x14#8 then
    checked op (zeroField cw 105 7 && zeroField cw 0 64)
      (.mrel (field cw 112 8) (dirField cw) (field cw 88 16) (field cw 64 24))
  else if op = 0x15#8 then checked op (zeroField cw 104 16 && zeroField cw 0 88) (.mread8 (field cw 88 16))
  else if op = 0x16#8 then
    checked op (zeroField cw 104 16 && zeroField cw 72 16 && zeroField cw 0 64)
      (.mwrite8 (field cw 88 16) (field cw 64 8))
  else if op = 0x17#8 then
    checked op (zeroField cw 105 15 && zeroField cw 0 88) (.mpage (dirField cw) (field cw 88 16))
  else .error (.undefinedOpcode op)

/-- The `DIR` bit (30_encoding R51, R52). -/
def dirBit (d : Dir) : BitVec 1 :=
  match d with
  | .r => 0#1
  | .w => 1#1

/-- The command word of a command: its format's fields, high bits first, reserved bits 0 (30_encoding R46 to R52). -/
def encode (i : Instr) : CommandWord :=
  match i with
  | .frst => 0x00#8 ++ 0#120
  | .frec mask wide sub x y =>
    0x01#8 ++ mask ++ 0#6 ++ BitVec.ofBool wide ++ BitVec.ofBool sub ++ 0#54 ++ x ++ 0#14 ++ y
  | .fget mask => 0x02#8 ++ mask ++ 0#112
  | .fset mask value => 0x03#8 ++ mask ++ value ++ 0#104
  | .minit => 0x10#8 ++ 0#120
  | .mconn high dev => 0x11#8 ++ 0#15 ++ BitVec.ofBool high ++ dev ++ 0#88
  | .mdisc handle => 0x12#8 ++ handle ++ 0#112
  | .malloc handle iscb dir addr len target stride =>
    0x13#8 ++ handle ++ 0#6 ++ BitVec.ofBool iscb ++ dirBit dir ++ addr ++ len ++ target ++ stride
  | .mrel handle dir addr len => 0x14#8 ++ handle ++ 0#7 ++ dirBit dir ++ addr ++ len ++ 0#64
  | .mread8 addr => 0x15#8 ++ 0#16 ++ addr ++ 0#88
  | .mwrite8 addr data => 0x16#8 ++ 0#16 ++ addr ++ 0#16 ++ data ++ 0#64
  | .mpage dir addr => 0x17#8 ++ 0#15 ++ dirBit dir ++ addr ++ 0#88

/-- A row of opcode_table.json: a word is the row's when its bits under `mask` are `pattern` (30_encoding R54). -/
structure TableRow where
  mnemonic : String
  pattern : CommandWord
  mask : CommandWord
  deriving DecidableEq, Repr

/-- opcode_table.json, its rows in its order (30_encoding R54). -/
def opcodeTable : List TableRow :=
  [ ⟨"FRST", 0x00000000000000000000000000000000#128, 0xFFFFFFFFFFFFFFFFFFFFFFFFFFFFFFFF#128⟩,
    ⟨"FREC", 0x01000000000000000000000000000000#128, 0xFF00FCFFFFFFFFFFFFFC0000FFFC0000#128⟩,
    ⟨"FGET", 0x02000000000000000000000000000000#128, 0xFF00FFFFFFFFFFFFFFFFFFFFFFFFFFFF#128⟩,
    ⟨"FSET", 0x03000000000000000000000000000000#128, 0xFF0000FFFFFFFFFFFFFFFFFFFFFFFFFF#128⟩,
    ⟨"MINIT", 0x10000000000000000000000000000000#128, 0xFFFFFFFFFFFFFFFFFFFFFFFFFFFFFFFF#128⟩,
    ⟨"MCONN", 0x11000000000000000000000000000000#128, 0xFFFFFE0000FFFFFFFFFFFFFFFFFFFFFF#128⟩,
    ⟨"MDISC", 0x12000000000000000000000000000000#128, 0xFF00FFFFFFFFFFFFFFFFFFFFFFFFFFFF#128⟩,
    ⟨"MALLOC", 0x13000000000000000000000000000000#128, 0xFF00FC00000000000000000000000000#128⟩,
    ⟨"MREL", 0x14000000000000000000000000000000#128, 0xFF00FE0000000000FFFFFFFFFFFFFFFF#128⟩,
    ⟨"MREAD8", 0x15000000000000000000000000000000#128, 0xFFFFFF0000FFFFFFFFFFFFFFFFFFFFFF#128⟩,
    ⟨"MWRITE8", 0x16000000000000000000000000000000#128, 0xFFFFFF0000FFFF00FFFFFFFFFFFFFFFF#128⟩,
    ⟨"MPAGE", 0x17000000000000000000000000000000#128, 0xFFFFFE0000FFFFFFFFFFFFFFFFFFFFFF#128⟩ ]

/-- A word matches a row of the table (30_encoding R54). -/
def TableRow.matches (row : TableRow) (cw : CommandWord) : Bool := cw &&& row.mask == row.pattern

/-- The mnemonic of a command (30_encoding R54). -/
def mnemonic (i : Instr) : String :=
  match i with
  | .frst => "FRST"
  | .frec _ _ _ _ _ => "FREC"
  | .fget _ => "FGET"
  | .fset _ _ => "FSET"
  | .minit => "MINIT"
  | .mconn _ _ => "MCONN"
  | .mdisc _ => "MDISC"
  | .malloc _ _ _ _ _ _ _ => "MALLOC"
  | .mrel _ _ _ _ => "MREL"
  | .mread8 _ => "MREAD8"
  | .mwrite8 _ _ => "MWRITE8"
  | .mpage _ _ => "MPAGE"

/-- What the decoder reads from the command whose bits are `w`, bit 0 the least significant; the bits above `nbits` are 0. -/
def decodeTableWord (nbits w : Nat) : Option Instr :=
  match decode (BitVec.ofNat 128 (w % 2 ^ nbits)) with
  | .ok i => some i
  | .error _ => none

end Sys2Proof
end

