-- ==== Sys2Proof/Machine/State.lean ====
section
/-! DEFINITION. The state of the block (10_state R10 to R29), what a model carries beside it (10_state R28, 20_memory
R32 to R34), and the state after reset (70_reset_and_hazards R130, R131). -/

namespace Sys2Proof.Machine

/-- Why the machine stops. The block raises no exception (60_exceptions R115), so no reachable state reaches this. -/
inductive Fault where
  /-- Raised by `MREAD8` and `MWRITE8` on a callback entry whose owner is not a slot index: `SLOT[owner]` (20_memory R33)
  does not exist. Safe: the machine stops where the spec gives no meaning, and 10_state R26 rules the state out. -/
  | ownerNotASlot (owner : Handle)
  deriving DecidableEq, Repr

/-- Why a step has no meaning. -/
inductive Refusal where
  /-- An arm of `exec` whose instruction has no meaning yet. No arm raises it: every command is modelled. Safe. -/
  | notModelled (mnemonic : String)
  deriving DecidableEq, Repr

/-- The six state elements of the Flag Evaluator (10_state R10). -/
structure FlagEvaluator where
  /-- `F`, the visible flag register `S Z Y H X PV N C` (10_state R11). -/
  f : Byte
  /-- `FX`, the first retained operand (10_state R12). -/
  fx : Operand
  /-- `FY`, the second retained operand (10_state R12). -/
  fy : Operand
  /-- `SUB`: the recorded operation was a subtraction (10_state R13). -/
  sub : Bool
  /-- `WIDE`: the recorded operation was 16 bits wide (10_state R13). -/
  wide : Bool
  /-- `DM`, the dirty mask (10_state R14). -/
  dm : Byte
  deriving DecidableEq, Repr

/-- The kinds of a page table entry (10_state R22): 0, 1 and 2; value 3 never occurs. -/
inductive EntryKind where
  | undef
  | ptr
  | cb
  deriving DecidableEq, Repr

/-- A page table entry (10_state R22). -/
structure Entry where
  kind : EntryKind
  target : Pointer
  owner : Handle
  deriving DecidableEq, Repr

/-- `UNDEF_ENTRY` (10_state R26). -/
def undefEntry : Entry := { kind := .undef, target := 0#32, owner := Config.invalidHandle }

/-- What the arbiter holds at one slot index `s`: `SLOT[s]` (10_state R21), `LV[s]` (R24) and the bits `PT[..][..][s]` (R25). -/
structure Slot where
  /-- `SLOT[s].used`. -/
  used : Bool
  /-- `SLOT[s].dev`. -/
  dev : DeviceId
  /-- `LV[s][d][p]`. -/
  lv : ByDir (Vector Entry 64)
  /-- `PT[d][p][s]`. -/
  pt : ByDir (Vector Bool 64)
  deriving DecidableEq, Repr

/-- The four state elements of the Memory Arbiter (10_state R20): `SLOT`, `LV` and `PT` by slot, and `GT`. -/
structure Arbiter where
  /-- The `NSLOT` slots, index 0 first. -/
  slots : List Slot
  /-- `GT[d][p]` (10_state R23). -/
  gt : ByDir (Vector Entry 64)
  deriving DecidableEq, Repr

/-- The written bytes of the backing store, in canonical form: addresses strictly rising, each below 2^32. An unlisted
address holds no written byte (20_memory R32). -/
abbrev Memory := List Host.Cell

/-- What an undefined-stub access was (20_memory R34). -/
inductive LogKind where
  | rd
  | wr
  deriving DecidableEq, Repr

/-- One external transaction of the arbiter (20_memory R32 to R34, R41). -/
inductive Event where
  /-- A read of the backing store and the byte it gave. -/
  | bsRead (p : Pointer) (v : Byte)
  /-- A write of the backing store. -/
  | bsWrite (p : Pointer) (v : Byte)
  /-- `DevRead(dev, fn, addr)` and the device's answer. -/
  | devRead (dev : DeviceId) (fn : Pointer) (addr : Address) (answer : Byte)
  /-- `DevWrite(dev, fn, addr, v)`. -/
  | devWrite (dev : DeviceId) (fn : Pointer) (addr : Address) (v : Byte)
  /-- `Log(kind, addr)`. -/
  | log (kind : LogKind) (addr : Address)
  deriving DecidableEq, Repr

/-- What the outside presents between two commands (20_memory R32, R40; 70_reset_and_hazards R130). -/
inductive Input where
  /-- A command word on the command port. -/
  | command (cw : CommandWord)
  /-- Hardware reset. -/
  | hardReset
  /-- A device or the host writes a byte of the backing store by a path of its own. -/
  | outsideWrite (p : Pointer) (v : Byte)
  deriving DecidableEq, Repr

/-- The machine: the block's two units, and what a model carries beside them. -/
structure State where
  /-- The parameters `F_RESET` and `UNDEF_READ`; no step changes them (10_state R28). -/
  cfg : Params
  /-- The Flag Evaluator. -/
  fe : FlagEvaluator
  /-- The Memory Arbiter. -/
  ma : Arbiter
  /-- `BS`, the written bytes of the backing store (20_memory R32). -/
  bs : Memory
  /-- What the client, the reset line and outside writers will present, front first. Log entry 1. -/
  port : List Input
  /-- The `DevRead` answers that are still to come, front first (20_memory R33). Log entry 4. -/
  devIn : List Byte
  /-- How many free `DevRead` answers have been drawn. Log entry 4. -/
  draws : Nat
  /-- The response words driven so far, oldest first (30_encoding R57). -/
  rsps : List ResponseWord
  /-- The external transactions so far, oldest first (20_memory R41, 60_exceptions R120). -/
  trace : List Event
  /-- The first command word refused at decode, kept as a mark on the run (93_implementation_defined U1). -/
  mark : Option Reject
  deriving DecidableEq, Repr

/-- The Flag Evaluator after reset (10_state R16). -/
def FlagEvaluator.reset (fReset : Byte) : FlagEvaluator :=
  { f := fReset, fx := 0#18, fy := 0#18, sub := false, wide := false, dm := 0x00#8 }

/-- A slot after reset: free, no grant, every local view entry `UNDEF_ENTRY` (10_state R27). -/
def Slot.reset : Slot :=
  { used := false
    dev := 0#16
    lv := { r := Vector.replicate 64 undefEntry, w := Vector.replicate 64 undefEntry }
    pt := { r := Vector.replicate 64 false, w := Vector.replicate 64 false } }

/-- The Memory Arbiter with `n` slots after reset (10_state R27). -/
def Arbiter.reset (n : Nat) : Arbiter :=
  { slots := List.replicate n Slot.reset
    gt := { r := Vector.replicate 64 undefEntry, w := Vector.replicate 64 undefEntry } }

/-- The machine at power-up with the given parameters (70_reset_and_hazards R130, R131). -/
def State.powerUp (params : Params) (nslot : Nat) : State :=
  { cfg := params
    fe := FlagEvaluator.reset params.fReset
    ma := Arbiter.reset nslot
    bs := []
    port := []
    devIn := []
    draws := 0
    rsps := []
    trace := []
    mark := none }

/-- The machine right after reset, with this hardware's parameters (00_scope R6). -/
def State.reset : State := State.powerUp Config.params Config.nslot

end Sys2Proof.Machine
end

