-- ==== Sys2Proof/Machine/Ops.lean ====
section
/-! DEFINITION. The named operations over the state: the backing store, the tables, the external transactions, the response
word and the resets. The block takes no exception and returns from none (60_exceptions R115, R121), so the one operation
that ends every command is `State.respond`. -/

namespace Sys2Proof.Machine

/-! ## The backing store's cells -/

/-- The byte last written at address `a`; `none` where nothing has written (20_memory R32). -/
def Memory.read (m : Memory) (a : Nat) : Option Byte :=
  match m with
  | [] => none
  | (b, v) :: rest => if b = a then some v else Memory.read rest a

/-- `m` with byte `v` at address `a`, its cells kept in rising order. -/
def Memory.write (m : Memory) (a : Nat) (v : Byte) : Memory :=
  match m with
  | [] => [(a, v)]
  | (b, w) :: rest =>
    if a < b then (a, v) :: (b, w) :: rest
    else if a = b then (a, v) :: rest
    else (b, w) :: Memory.write rest a v

/-- The addresses of the cells rise strictly, each is at least `lo`, and each is below 2^32. -/
def Memory.wfFrom (m : Memory) (lo : Nat) : Bool :=
  match m with
  | [] => true
  | (b, _) :: rest => decide (lo ≤ b) && decide (b < 2 ^ 32) && Memory.wfFrom rest (b + 1)

/-- The canonical form of the backing store. -/
def Memory.wf (m : Memory) : Bool := Memory.wfFrom m 0

/-! ## The tables of the arbiter -/

/-- `NSLOT` (00_scope R6). -/
def Arbiter.nslot (m : Arbiter) : Nat := m.slots.length

/-- `SLOT[s].used` (10_state R21). -/
def Arbiter.usedAt (m : Arbiter) (s : Nat) : Bool :=
  match m.slots[s]? with
  | some row => row.used
  | none => false

/-- `SLOT[s].dev`; `none` where `s` is no slot index (10_state R21). -/
def Arbiter.devAt (m : Arbiter) (s : Nat) : Option DeviceId := (m.slots[s]?).map Slot.dev

/-- `GT[d][p]` (10_state R23). -/
def Arbiter.gtAt (m : Arbiter) (d : Dir) (p : Page) : Entry := (m.gt.get d)[p.val]

/-- `LV[s][d][p]` (10_state R24). -/
def Arbiter.lvAt (m : Arbiter) (s : Nat) (d : Dir) (p : Page) : Entry :=
  match m.slots[s]? with
  | some row => (row.lv.get d)[p.val]
  | none => undefEntry

/-- `PT[d][p][s]` (10_state R25). -/
def Arbiter.ptAt (m : Arbiter) (d : Dir) (p : Page) (s : Nat) : Bool :=
  match m.slots[s]? with
  | some row => (row.pt.get d)[p.val]
  | none => false

/-- `FirstLive(d, p)`: the lowest slot whose `PT` bit is 1 (41_memory_arbiter R91). -/
def Arbiter.firstLive (m : Arbiter) (d : Dir) (p : Page) : Option Nat :=
  m.slots.findIdx? (fun row => (row.pt.get d)[p.val])

/-- `SLOT[s] <- {used, dev}`. -/
def Arbiter.setSlot (m : Arbiter) (s : Nat) (used : Bool) (dev : DeviceId) : Arbiter :=
  { m with slots := m.slots.modify s (fun row => { row with used := used, dev := dev }) }

/-- `GT[d][p] <- e`. -/
def Arbiter.setGt (m : Arbiter) (d : Dir) (p : Page) (e : Entry) : Arbiter :=
  { m with gt := m.gt.set d ((m.gt.get d).set p.val e p.isLt) }

/-- `LV[s][d][p] <- e`. -/
def Arbiter.setLv (m : Arbiter) (s : Nat) (d : Dir) (p : Page) (e : Entry) : Arbiter :=
  { m with slots := m.slots.modify s (fun row => { row with lv := row.lv.set d ((row.lv.get d).set p.val e p.isLt) }) }

/-- `PT[d][p][s] <- b`. -/
def Arbiter.setPt (m : Arbiter) (d : Dir) (p : Page) (s : Nat) (b : Bool) : Arbiter :=
  { m with slots := m.slots.modify s (fun row => { row with pt := row.pt.set d ((row.pt.get d).set p.val b p.isLt) }) }

/-- `AllocPage(s, d, p, e)` (41_memory_arbiter R98). -/
def Arbiter.allocPage (m : Arbiter) (s : Nat) (d : Dir) (p : Page) (e : Entry) : Arbiter :=
  let granted := (m.setLv s d p e).setPt d p s true
  if granted.firstLive d p = some s then granted.setGt d p e else granted

/-- The entry that shows through on a page: the first live slot's local view, or `UNDEF_ENTRY` (41_memory_arbiter R99, R103). -/
def Arbiter.visibleEntry (m : Arbiter) (d : Dir) (p : Page) : Entry :=
  match m.firstLive d p with
  | some t => m.lvAt t d p
  | none => undefEntry

/-- `ReleasePage(s, d, p)` for the slot `s` of handle `h` (41_memory_arbiter R99). -/
def Arbiter.releasePage (m : Arbiter) (h : Handle) (d : Dir) (p : Page) : Arbiter :=
  if m.ptAt d p h.toNat then
    let wasOwner := (m.gtAt d p).owner == h
    let revoked := (m.setPt d p h.toNat false).setLv h.toNat d p undefEntry
    if wasOwner then revoked.setGt d p (revoked.visibleEntry d p) else revoked
  else m

/-- Every page number, ascending. -/
def allPages : List Page := List.finRange 64

/-- `ReleasePage` of one handle on every page of both directions (41_memory_arbiter R97). -/
def Arbiter.releaseAll (m : Arbiter) (h : Handle) : Arbiter :=
  [Dir.r, Dir.w].foldl (fun m d => allPages.foldl (fun m p => m.releasePage h d p) m) m

/-- The free slots, ascending (41_memory_arbiter R96). -/
def Arbiter.freeSlots (m : Arbiter) : List Nat := (List.range m.nslot).filter (fun s => !m.usedAt s)

/-! ## External transactions -/

/-- `BS[p]`: the byte last written, or the free value of a byte that nothing has written (20_memory R32, U5). -/
def State.bsRead (s : State) (p : Pointer) : Byte :=
  match s.bs.read p.toNat with
  | some v => v
  | none => Config.bsInitial p

/-- `BS[p] <- v` (20_memory R32). -/
def State.bsWrite (s : State) (p : Pointer) (v : Byte) : State := { s with bs := s.bs.write p.toNat v }

/-- One external transaction, recorded (20_memory R41). -/
def State.emit (s : State) (e : Event) : State := { s with trace := s.trace ++ [e] }

/-- The answer a device gives to the next `DevRead`: the next input, or a fresh free value (20_memory R33, U6). -/
def State.devAnswer (s : State) : Byte :=
  match s.devIn with
  | v :: _ => v
  | [] => Config.devAnswer s.draws

/-- The state once that answer is taken. -/
def State.dropDevAnswer (s : State) : State :=
  match s.devIn with
  | _ :: rest => { s with devIn := rest }
  | [] => { s with draws := s.draws + 1 }

/-! ## The response word -/

/-- The status codes (30_encoding R58). -/
inductive Status where
  | ok
  | illegal
  | noSlot
  | badHandle
  | backstop
  | badArg
  deriving DecidableEq, Repr

/-- The value of a status in `ST` (30_encoding R58). -/
def Status.code (st : Status) : BitVec 4 :=
  match st with
  | .ok => 0#4
  | .illegal => 1#4
  | .noSlot => 2#4
  | .badHandle => 3#4
  | .backstop => 4#4
  | .badArg => 5#4

/-- The response word `{ST, 0, ISCB, AUX, VAL}` (30_encoding R57). -/
def responseWord (st : Status) (aux : Handle) (iscb : Bool) (val : Pointer) : ResponseWord :=
  st.code ++ 0#19 ++ BitVec.ofBool iscb ++ aux ++ val

/-- `ST` of a response word (30_encoding R57). -/
def rspStatus (w : ResponseWord) : BitVec 4 := w.extractLsb' 60 4

/-- `ISCB` of a response word (30_encoding R57). -/
def rspIscb (w : ResponseWord) : BitVec 1 := w.extractLsb' 40 1

/-- `AUX` of a response word (30_encoding R57). -/
def rspAux (w : ResponseWord) : Handle := w.extractLsb' 32 8

/-- `VAL` of a response word (30_encoding R57). -/
def rspVal (w : ResponseWord) : Pointer := w.extractLsb' 0 32

/-- `respond(ST = st, AUX = aux, ISCB = iscb, VAL = val)` (00_scope R8, 30_encoding R57). -/
def State.respond (s : State) (st : Status) (aux : Handle) (iscb : Bool) (val : Pointer) : State :=
  { s with rsps := s.rsps ++ [responseWord st aux iscb val] }

/-- `respond(ST = st)`, every other field 0 (00_scope R8). -/
def State.respondStatus (s : State) (st : Status) : State := s.respond st 0#8 false 0#32

/-! ## Resets -/

/-- The Flag Evaluator's reset: `F_RESET`, and everything else zero (10_state R16, 40_flag_evaluator R69). -/
def State.resetFlags (s : State) : State :=
  { s with fe := { f := s.cfg.fReset, fx := 0#18, fy := 0#18, sub := false, wide := false, dm := 0x00#8 } }

/-- The Memory Arbiter's reset: every slot free and every entry `UNDEF_ENTRY` (10_state R27, 41_memory_arbiter R95). -/
def State.resetArbiter (s : State) : State :=
  { s with
    ma :=
      { slots := s.ma.slots.map (fun _ =>
          { used := false
            dev := 0#16
            lv := { r := Vector.replicate 64 undefEntry, w := Vector.replicate 64 undefEntry }
            pt := { r := Vector.replicate 64 false, w := Vector.replicate 64 false } })
        gt := { r := Vector.replicate 64 undefEntry, w := Vector.replicate 64 undefEntry } } }

/-- Hardware reset: the state that `FRST` followed by `MINIT` would leave, with no response (70_reset_and_hazards R130,
R132). -/
def State.hardReset (s : State) : State := s.resetFlags.resetArbiter

/-- A write of the backing store by a device or the host, which the block neither sees nor orders (20_memory R32). -/
def State.outsideWrite (s : State) (p : Pointer) (v : Byte) : State := s.bsWrite p v

/-- The answer to an illegal command word: no state of the block changes, `ST = ILLEGAL` (30_encoding R55, 60_exceptions
R116), and the run keeps the first refusal as a mark (U1). -/
def State.answerIllegal (s : State) (reason : Reject) : State :=
  { s.respondStatus .illegal with mark := s.mark.or (some reason) }

end Sys2Proof.Machine
end

