-- ==== Sys2Proof/Machine/Operands.lean ====
section
/-! DEFINITION. The operand forms of the Memory Arbiter's commands: bus addresses (20_memory R31), handles
(41_memory_arbiter R92, R93) and byte ranges (41_memory_arbiter R94), and the two access paths (20_memory R35 to R37). -/

namespace Sys2Proof.Machine

/-- `page(a) = a[15:10]` (20_memory R31). -/
def pageOf (a : Address) : Page := ⟨(a.extractLsb' 10 6).toNat, (a.extractLsb' 10 6).isLt⟩

/-- `off(a) = a[9:0]` (20_memory R31). -/
def offsetOf (a : Address) : BitVec 10 := a.extractLsb' 0 10

/-- A handle is valid when it names a used slot (41_memory_arbiter R92). -/
def Arbiter.validHandle (m : Arbiter) (h : Handle) : Bool := decide (h.toNat < m.nslot) && m.usedAt h.toNat

/-- `HANDLE = NSLOT-1`, the backstop slot (41_memory_arbiter R93). -/
def Arbiter.isBackstop (m : Arbiter) (h : Handle) : Bool := h.toNat + 1 == m.nslot

/-- `ArgCheck(ADDR, LEN)` (41_memory_arbiter R94). -/
def argCheck (addr : Address) (len : BitVec 24) : Bool :=
  decide (len.toNat ≤ 65536) && decide (addr.toNat + len.toNat ≤ 65536)

/-- The first page of a byte range, `ADDR[15:10]` (41_memory_arbiter R94). -/
def firstPage (addr : Address) : Nat := (pageOf addr).val

/-- The last page of a byte range that is not empty, `(ADDR + LEN - 1)[15:10]` (41_memory_arbiter R94). -/
def lastPage (addr : Address) (len : BitVec 24) : Nat := (addr.toNat + len.toNat - 1) / 1024 % 64

/-- `Cover(ADDR, LEN)`: the covering pages, ascending (41_memory_arbiter R94). -/
def cover (addr : Address) (len : BitVec 24) : List Page :=
  if len = 0#24 then []
  else allPages.filter (fun p => decide (firstPage addr ≤ p.val) && decide (p.val ≤ lastPage addr len))

/-- The entry `MALLOC` gives the covered page `p`, the `i`-th of its range with `i = p - first` (41_memory_arbiter R98). -/
def grantEntry (h : Handle) (iscb : Bool) (addr : Address) (target stride : Pointer) (p : Page) : Entry :=
  { kind := if iscb then .cb else .ptr
    target := target + BitVec.ofNat 32 (p.val - firstPage addr) * stride
    owner := h }

/-- `Resolve(d, a)`: the global entry of the page, and nothing else (20_memory R35). -/
def Arbiter.resolve (m : Arbiter) (d : Dir) (a : Address) : Entry := m.gtAt d (pageOf a)

/-- The backing-store pointer of an access through a raw pointer entry, `mod 2^32` (20_memory R36). -/
def pointerOf (e : Entry) (a : Address) : Pointer := e.target + (offsetOf a).setWidth 32

/-- `MemRead(a, 1)`: the byte, and the state after the one external transaction of the read (20_memory R36). -/
def memRead (s : State) (a : Address) : Except Fault (Byte × State) :=
  let e := s.ma.resolve .r a
  match e.kind with
  | .ptr => .ok (s.bsRead (pointerOf e a), s.emit (.bsRead (pointerOf e a) (s.bsRead (pointerOf e a))))
  | .cb =>
    match s.ma.devAt e.owner.toNat with
    | some dev => .ok (s.devAnswer, s.dropDevAnswer.emit (.devRead dev e.target a s.devAnswer))
    | none => .error (.ownerNotASlot e.owner)
  | .undef => .ok (s.cfg.undefRead, s.emit (.log .rd a))

/-- `MemWrite(a, 1, v)`: the state after the one external transaction of the write (20_memory R37). -/
def memWrite (s : State) (a : Address) (v : Byte) : Except Fault State :=
  let e := s.ma.resolve .w a
  match e.kind with
  | .ptr => .ok ((s.bsWrite (pointerOf e a) v).emit (.bsWrite (pointerOf e a) v))
  | .cb =>
    match s.ma.devAt e.owner.toNat with
    | some dev => .ok (s.emit (.devWrite dev e.target a v))
    | none => .error (.ownerNotASlot e.owner)
  | .undef => .ok (s.emit (.log .wr a))

end Sys2Proof.Machine
end

