-- ==== Sys2Proof/Machine/AccessCommands.lean ====
section
/-! DEFINITION. The meanings of the byte accesses and the page query (41_memory_arbiter R100, R101, R104). -/

namespace Sys2Proof.Machine

/-- `MREAD8 addr` (41_memory_arbiter R100). -/
def execMread8 (addr : Address) (s : State) : Host.Outcome State Fault Refusal :=
  match memRead s addr with
  | .ok (v, t) => .next (t.respond .ok 0#8 false (v.setWidth 32))
  | .error f => .fault f

/-- `MWRITE8 addr, data` (41_memory_arbiter R101). -/
def execMwrite8 (addr : Address) (data : Byte) (s : State) : Host.Outcome State Fault Refusal :=
  match memWrite s addr data with
  | .ok t => .next (t.respondStatus .ok)
  | .error f => .fault f

/-- `ISCB` of an entry: 0 for a raw pointer, 1 for a callback and for the undefined stub (41_memory_arbiter R104). -/
def Entry.iscb (e : Entry) : Bool := e.kind != .ptr

/-- `MPAGE dir, addr` (41_memory_arbiter R104). -/
def execMpage (d : Dir) (addr : Address) (s : State) : Host.Outcome State Fault Refusal :=
  let e := s.ma.resolve d addr
  .next (s.respond .ok e.owner e.iscb e.target)

end Sys2Proof.Machine
end

