-- ==== Sys2Proof/Machine/ArbiterCommands.lean ====
section
/-! DEFINITION. The meanings of the Memory Arbiter's table-changing commands (41_memory_arbiter R95 to R99). Every check is
made before the first state write, in the order of 60_exceptions R119. -/

namespace Sys2Proof.Machine

/-- `MINIT` (41_memory_arbiter R95). -/
def execMinit (s : State) : Host.Outcome State Fault Refusal :=
  .next (s.resetArbiter.respondStatus .ok)

/-- The slot `MCONN` takes: the lowest free index for `HI`, the highest for `LO` (41_memory_arbiter R96). -/
def Arbiter.chooseSlot (m : Arbiter) (high : Bool) : Option Nat :=
  if high then m.freeSlots.head? else m.freeSlots.getLast?

/-- `MCONN dev, HI|LO` (41_memory_arbiter R96). -/
def execMconn (high : Bool) (dev : DeviceId) (s : State) : Host.Outcome State Fault Refusal :=
  match s.ma.chooseSlot high with
  | none => .next (s.respond .noSlot Config.invalidHandle false 0#32)
  | some k => .next (State.respond { s with ma := s.ma.setSlot k true dev } .ok (BitVec.ofNat 8 k) false 0#32)

/-- `MDISC h` (41_memory_arbiter R97). -/
def execMdisc (h : Handle) (s : State) : Host.Outcome State Fault Refusal :=
  if !s.ma.validHandle h then .next (s.respondStatus .badHandle)
  else if s.ma.isBackstop h then .next (s.respondStatus .backstop)
  else .next (State.respondStatus { s with ma := (s.ma.releaseAll h).setSlot h.toNat false 0#16 } .ok)

/-- The tables after the loop of `MALLOC` (41_memory_arbiter R98). -/
def Arbiter.allocRange (m : Arbiter) (h : Handle) (iscb : Bool) (d : Dir) (addr : Address) (len : BitVec 24)
    (target stride : Pointer) : Arbiter :=
  (cover addr len).foldl (fun m p => m.allocPage h.toNat d p (grantEntry h iscb addr target stride p)) m

/-- `MALLOC h, dir, addr, len, PTR|CB, target, stride` (41_memory_arbiter R98). -/
def execMalloc (h : Handle) (iscb : Bool) (d : Dir) (addr : Address) (len : BitVec 24) (target stride : Pointer)
    (s : State) : Host.Outcome State Fault Refusal :=
  if !s.ma.validHandle h then .next (s.respondStatus .badHandle)
  else if !argCheck addr len then .next (s.respondStatus .badArg)
  else .next (State.respondStatus { s with ma := s.ma.allocRange h iscb d addr len target stride } .ok)

/-- The tables after the loop of `MREL` (41_memory_arbiter R99). -/
def Arbiter.releaseRange (m : Arbiter) (h : Handle) (d : Dir) (addr : Address) (len : BitVec 24) : Arbiter :=
  (cover addr len).foldl (fun m p => m.releasePage h d p) m

/-- `MREL h, dir, addr, len` (41_memory_arbiter R99). -/
def execMrel (h : Handle) (d : Dir) (addr : Address) (len : BitVec 24) (s : State) :
    Host.Outcome State Fault Refusal :=
  if !s.ma.validHandle h then .next (s.respondStatus .badHandle)
  else if !argCheck addr len then .next (s.respondStatus .badArg)
  else if s.ma.isBackstop h then .next (s.respondStatus .backstop)
  else .next (State.respondStatus { s with ma := s.ma.releaseRange h d addr len } .ok)

end Sys2Proof.Machine
end

