-- ==== Sys2Proof/Machine/Flags.lean ====
section
/-! DEFINITION. The Flag Evaluator's flag computations (40_flag_evaluator R65 to R72): `Recompute`, the resolve
micro-step, the architectural flag values, and what each command does to the six elements. -/

namespace Sys2Proof.Machine

/-- The mask constants of 10_state R11. -/
def maskS : Byte := 0x80#8
def maskZ : Byte := 0x40#8
def maskY : Byte := 0x20#8
def maskH : Byte := 0x10#8
def maskX : Byte := 0x08#8
def maskPV : Byte := 0x04#8
def maskN : Byte := 0x02#8
def maskC : Byte := 0x01#8

/-- `v` with bit `k` set to `b`. -/
def putBit (v : Byte) (k : Fin 8) (b : Bool) : Byte :=
  if b then v ||| (1#8 <<< k.val) else v &&& ~~~(1#8 <<< k.val)

/-- The flag byte `{S, Z, Y, H, X, PV, N, C}` (10_state R11). -/
def flagByte (s z y h x pv n c : Bool) : Byte :=
  BitVec.ofBool s ++ BitVec.ofBool z ++ BitVec.ofBool y ++ BitVec.ofBool h ++ BitVec.ofBool x ++ BitVec.ofBool pv ++
    BitVec.ofBool n ++ BitVec.ofBool c

/-- The operation width `W` (10_state R13). -/
def widthOf (wide : Bool) : Nat := if wide then 16 else 8

/-- `R`, the scaled sum or difference, `W+2` bits, of `x` and `y`, `W+1` bits each (40_flag_evaluator R66). -/
def scaledResult (w : Nat) (sub : Bool) (x y : Nat) : Nat :=
  if sub then (x + 2 ^ (w + 2) - y) % 2 ^ (w + 2) else (x + y) % 2 ^ (w + 2)

/-- Flag bit `k` of the operation of width `w` on scaled operands `x` and `y` (40_flag_evaluator R66). -/
def flagOf (w : Nat) (sub : Bool) (x y : Nat) (k : Fin 8) : Bool :=
  let r := scaledResult w sub x y
  let t := x ^^^ y ^^^ r
  match k with
  | 0 => r.testBit (w + 1)
  | 1 => sub
  | 2 => if sub then ((x ^^^ y) &&& (x ^^^ r)).testBit w else ((x ^^^ r) &&& (y ^^^ r)).testBit w
  | 3 => r.testBit (w - 4)
  | 4 => t.testBit (w - 3)
  | 5 => r.testBit (w - 2)
  | 6 => r / 2 % 2 ^ w == 0
  | 7 => r.testBit w

/-- `Recompute(k)` on given operands and tags: the low `W+1` bits of each operand, the rest ignored (40_flag_evaluator
R66, R67). -/
def recomputeOn (fx fy : Operand) (sub wide : Bool) (k : Fin 8) : Bool :=
  let w := widthOf wide
  flagOf w sub (fx.toNat % 2 ^ (w + 1)) (fy.toNat % 2 ^ (w + 1)) k

/-- `Recompute(k)` on the current state (40_flag_evaluator R66). -/
def FlagEvaluator.recompute (fe : FlagEvaluator) (k : Fin 8) : Bool := recomputeOn fe.fx fe.fy fe.sub fe.wide k

/-- `FlagVal(k)`, the architectural value of flag `k` (10_state R15). -/
def FlagEvaluator.flagVal (fe : FlagEvaluator) (k : Fin 8) : Bool :=
  if fe.dm.getLsbD k.val then fe.recompute k else fe.f.getLsbD k.val

/-- `ResolveBit(k)` (40_flag_evaluator R68). -/
def FlagEvaluator.resolveBit (fe : FlagEvaluator) (k : Fin 8) : FlagEvaluator :=
  { fe with f := putBit fe.f k (fe.recompute k), dm := putBit fe.dm k false }

/-- `for k in 0..7: if mask[k] = 1 and DM[k] = 1: ResolveBit(k)` (40_flag_evaluator R70, R71). -/
def FlagEvaluator.resolve (fe : FlagEvaluator) (mask : Byte) : FlagEvaluator :=
  (List.finRange 8).foldl
    (fun g k => if mask.getLsbD k.val && g.dm.getLsbD k.val then g.resolveBit k else g) fe

/-- `FREC`: save the dirty flags this record does not replace, then record (40_flag_evaluator R70). -/
def FlagEvaluator.record (fe : FlagEvaluator) (mask : Byte) (wide sub : Bool) (x y : Operand) : FlagEvaluator :=
  { fe.resolve (~~~mask) with fx := x, fy := y, sub := sub, wide := wide, dm := mask }

/-- `FSET`: `for k in 0..7: if mask[k] = 1: F[k] <- VALUE[k]; DM[k] <- 0` (40_flag_evaluator R72). -/
def FlagEvaluator.writeFlags (fe : FlagEvaluator) (mask value : Byte) : FlagEvaluator :=
  (List.finRange 8).foldl
    (fun g k =>
      if mask.getLsbD k.val then
        { g with f := putBit g.f k (value.getLsbD k.val), dm := putBit g.dm k false }
      else g)
    fe

end Sys2Proof.Machine
end

