-- ==== Sys2Proof/Machine/FlagCommands.lean ====
section
/-! DEFINITION. The meanings of the Flag Evaluator's commands (40_flag_evaluator R69 to R72). -/

namespace Sys2Proof.Machine

/-- `FRST` (40_flag_evaluator R69). -/
def execFrst (s : State) : Host.Outcome State Fault Refusal :=
  .next (s.resetFlags.respondStatus .ok)

/-- `FREC mask, tag, x, y` (40_flag_evaluator R70). -/
def execFrec (mask : Byte) (wide sub : Bool) (x y : Operand) (s : State) : Host.Outcome State Fault Refusal :=
  .next (State.respondStatus { s with fe := s.fe.record mask wide sub x y } .ok)

/-- `FGET mask` (40_flag_evaluator R71). -/
def execFget (mask : Byte) (s : State) : Host.Outcome State Fault Refusal :=
  let fe := s.fe.resolve mask
  .next (State.respond { s with fe := fe } .ok 0#8 false ((fe.f &&& mask).setWidth 32))

/-- `FSET mask, value` (40_flag_evaluator R72). -/
def execFset (mask value : Byte) (s : State) : Host.Outcome State Fault Refusal :=
  .next (State.respondStatus { s with fe := s.fe.writeFlags mask value } .ok)

end Sys2Proof.Machine
end

