-- ==== Sys2Proof/Machine/Dispatch.lean ====
section
/-! DEFINITION. One arm per command (30_encoding R54). -/

namespace Sys2Proof.Machine

def exec (i : Instr) (s : State) : Host.Outcome State Fault Refusal :=
  match i with
  | .frst => Sys2Proof.Machine.execFrst s
  | .frec mask wide sub x y => Sys2Proof.Machine.execFrec mask wide sub x y s
  | .fget mask => Sys2Proof.Machine.execFget mask s
  | .fset mask value => Sys2Proof.Machine.execFset mask value s
  | .minit => Sys2Proof.Machine.execMinit s
  | .mconn high dev => Sys2Proof.Machine.execMconn high dev s
  | .mdisc handle => Sys2Proof.Machine.execMdisc handle s
  | .malloc handle iscb dir addr len target stride => Sys2Proof.Machine.execMalloc handle iscb dir addr len target stride s
  | .mrel handle dir addr len => Sys2Proof.Machine.execMrel handle dir addr len s
  | .mread8 addr => Sys2Proof.Machine.execMread8 addr s
  | .mwrite8 addr data => Sys2Proof.Machine.execMwrite8 addr data s
  | .mpage dir addr => Sys2Proof.Machine.execMpage dir addr s

end Sys2Proof.Machine
end

