-- ==== Sys2Proof/Machine/Port.lean ====
section
/-! DEFINITION. The command port: what a step takes from it (10_state R18, 20_memory R40, 30_encoding R45, R55). -/

namespace Sys2Proof.Machine

/-- What one step finds at the port. -/
inductive Fetched where
  /-- Nothing is presented. -/
  | idle
  /-- A legal command, and the state with its word taken. -/
  | run (i : Instr) (s : State)
  /-- An input that is no command, or an illegal command word, dealt with. -/
  | done (s : State)
  deriving DecidableEq, Repr

/-- The state with what is left at the port. -/
def State.withPort (s : State) (port : List Input) : State := { s with port := port }

/-- Take the next input: a command word is decoded (30_encoding R54), an illegal one answered (R55); hardware reset
(70_reset_and_hazards R130) and outside writes of the backing store (20_memory R32) are dealt with between commands. -/
def fetch (s : State) : Fetched :=
  match s.port with
  | [] => .idle
  | .command cw :: rest =>
    match decode cw with
    | .ok i => .run i (s.withPort rest)
    | .error reason => .done ((s.withPort rest).answerIllegal reason)
  | .hardReset :: rest => .done (s.withPort rest).hardReset
  | .outsideWrite p v :: rest => .done ((s.withPort rest).outsideWrite p v)

/-- `s` with a command word presented next. -/
def State.present (s : State) (cw : CommandWord) : State := s.withPort (.command cw :: s.port)

end Sys2Proof.Machine
end

