-- ==== Sys2Proof/Machine/Step.lean ====
section
/-! DEFINITION. One step: the block takes one input and carries it out completely (10_state R18, 20_memory R40). -/

namespace Sys2Proof.Machine

/-- One step. A step with nothing presented changes nothing (40_flag_evaluator R75). -/
def step (s : State) : Host.Outcome State Fault Refusal :=
  match fetch s with
  | .idle => .next s
  | .run i t => exec i t
  | .done t => .next t

/-- `s` with the command whose bits are `w` presented next on the command port; the bits above `nbits` are 0. -/
def State.withFetchWord (s : State) (nbits w : Nat) : State := s.present (BitVec.ofNat 128 (w % 2 ^ nbits))

end Sys2Proof.Machine
end

