-- ==== Sys2Proof/Machine/Eager.lean ====
section
/-! DEFINITION. The eager reference of 40_flag_evaluator: the flag bytes of additions and subtractions (R77) and the
machine that computes every flag at once (R73). -/

namespace Sys2Proof.Machine

/-- `EagerAdd(W, a, b, cin)` (40_flag_evaluator R77). -/
def eagerAdd (w a b : Nat) (cin : Bool) : Byte :=
  let s := a + b + cin.toNat
  let r := s % 2 ^ w
  let hi := r / 2 ^ (w - 8)
  flagByte
    (r.testBit (w - 1))
    (r == 0)
    (hi.testBit 5)
    (decide (a % 2 ^ (w - 4) + b % 2 ^ (w - 4) + cin.toNat ≥ 2 ^ (w - 4)))
    (hi.testBit 3)
    (a.testBit (w - 1) == b.testBit (w - 1) && r.testBit (w - 1) != a.testBit (w - 1))
    false
    (decide (s ≥ 2 ^ w))

/-- `EagerSub(W, a, b, cin)` (40_flag_evaluator R77); `s` may be negative. -/
def eagerSub (w a b : Nat) (cin : Bool) : Byte :=
  let s : Int := (a : Int) - b - cin.toNat
  let r := (s % 2 ^ w).toNat
  let hi := r / 2 ^ (w - 8)
  flagByte
    (r.testBit (w - 1))
    (r == 0)
    (hi.testBit 5)
    (decide (((a % 2 ^ (w - 4) : Nat) : Int) - (b % 2 ^ (w - 4) : Nat) - cin.toNat < 0))
    (hi.testBit 3)
    (a.testBit (w - 1) != b.testBit (w - 1) && r.testBit (w - 1) != a.testBit (w - 1))
    true
    (decide (s < 0))

/-- All eight flags of a recorded operation, as a byte. -/
def recomputeByte (fx fy : Operand) (sub wide : Bool) : Byte :=
  flagByte (recomputeOn fx fy sub wide 7) (recomputeOn fx fy sub wide 6) (recomputeOn fx fy sub wide 5)
    (recomputeOn fx fy sub wide 4) (recomputeOn fx fy sub wide 3) (recomputeOn fx fy sub wide 2)
    (recomputeOn fx fy sub wide 1) (recomputeOn fx fy sub wide 0)

/-- All eight architectural flag values, as a byte (10_state R15). -/
def FlagEvaluator.flagValByte (fe : FlagEvaluator) : Byte :=
  flagByte (fe.flagVal 7) (fe.flagVal 6) (fe.flagVal 5) (fe.flagVal 4) (fe.flagVal 3) (fe.flagVal 2) (fe.flagVal 1)
    (fe.flagVal 0)

/-- `old` with the bits of `mask` taken from `new`. -/
def mergeBits (old mask new : Byte) : Byte := (old &&& ~~~mask) ||| (new &&& mask)

/-- The eager machine's one register `EF` after a command (40_flag_evaluator R73); a Memory Arbiter command leaves it. -/
def eagerNext (fReset ef : Byte) (i : Instr) : Byte :=
  match i with
  | .frst => fReset
  | .frec mask wide sub x y => mergeBits ef mask (recomputeByte x y sub wide)
  | .fget _ => ef
  | .fset mask value => mergeBits ef mask value
  | .minit => ef
  | .mconn _ _ => ef
  | .mdisc _ => ef
  | .malloc _ _ _ _ _ _ _ => ef
  | .mrel _ _ _ _ => ef
  | .mread8 _ => ef
  | .mwrite8 _ _ => ef
  | .mpage _ _ => ef

end Sys2Proof.Machine
end

