-- ==== Sys2Proof/Machine/Pseudo.lean ====
section
/-! DEFINITION. The pseudo-instructions (30_encoding R60): each stands for the commands its rule gives and adds no
behaviour (40_flag_evaluator R80 to R86, 41_memory_arbiter R105). -/

namespace Sys2Proof.Machine

/-- The pseudo-instructions of 30_encoding R60. `a` is the first operand, `b` the second, `c` the carry value that the
client read beforehand with `FGETC` (40_flag_evaluator section 5). -/
inductive Pseudo where
  | fgetf
  | fsetf (v : Byte)
  | fgetc
  | fgetz
  | fgets
  | fgetpv
  | fgeth
  | fgetn
  | recAdd8 (a b : BitVec 8)
  | recAdc8 (a b : BitVec 8) (c : Bool)
  | recSub8 (a b : BitVec 8)
  | recSbc8 (a b : BitVec 8) (c : Bool)
  | recCp8 (a b : BitVec 8)
  | recInc8 (a : BitVec 8)
  | recDec8 (a : BitVec 8)
  | recNeg8 (a : BitVec 8)
  | recAdd16 (a b : BitVec 16)
  | recAdc16 (a b : BitVec 16) (c : Bool)
  | recSbc16 (a b : BitVec 16) (c : Bool)
  | mallocp (h : Handle) (dir : Dir) (addr : Address) (len : BitVec 24) (ptr : Pointer)
  | mallocf (h : Handle) (dir : Dir) (addr : Address) (len : BitVec 24) (fn : Pointer)
  deriving DecidableEq, Repr

/-- A scaled operand `2*operand + slot` (40_flag_evaluator R65). -/
def scaled {w : Nat} (v : BitVec w) (slot : Bool) : Operand := BitVec.ofNat 18 (2 * v.toNat + slot.toNat)

/-- The first scaled operand of an addition or a subtraction (40_flag_evaluator R65). -/
def scaledX {w : Nat} (sub : Bool) (a : BitVec w) (cin : Bool) : Operand :=
  if sub then scaled a false else scaled a cin

/-- The commands a pseudo-instruction stands for. -/
def Pseudo.expand (q : Pseudo) : List Instr :=
  match q with
  | .fgetf => [.fget 0xFF#8]
  | .fsetf v => [.fset 0xFF#8 v]
  | .fgetc => [.fget maskC]
  | .fgetz => [.fget maskZ]
  | .fgets => [.fget maskS]
  | .fgetpv => [.fget maskPV]
  | .fgeth => [.fget maskH]
  | .fgetn => [.fget maskN]
  | .recAdd8 a b => [.frec 0xFF#8 false false (scaled a false) (scaled b false)]
  | .recAdc8 a b c => [.frec 0xFF#8 false false (scaled a c) (scaled b c)]
  | .recSub8 a b => [.frec 0xFF#8 false true (scaled a false) (scaled b false)]
  | .recSbc8 a b c => [.frec 0xFF#8 false true (scaled a false) (scaled b c)]
  | .recCp8 a b => [.frec 0xD7#8 false true (scaled a false) (scaled b false), .fset 0x28#8 (b &&& 0x28#8)]
  | .recInc8 a => [.frec 0xFE#8 false false (scaled a false) 2#18]
  | .recDec8 a => [.frec 0xFE#8 false true (scaled a false) 2#18]
  | .recNeg8 a => [.frec 0xFF#8 false true 0#18 (scaled a false)]
  | .recAdd16 a b => [.frec 0x3B#8 true false (scaled a false) (scaled b false)]
  | .recAdc16 a b c => [.frec 0xFF#8 true false (scaled a c) (scaled b c)]
  | .recSbc16 a b c => [.frec 0xFF#8 true true (scaled a false) (scaled b c)]
  | .mallocp h dir addr len ptr => [.malloc h false dir addr len ptr 0x400#32]
  | .mallocf h dir addr len fn => [.malloc h true dir addr len fn 0#32]

end Sys2Proof.Machine
end

