-- ==== Sys2Proof/Safety.lean ====
section
/-! DEFINITION. What a sound state is: the arbiter's invariants (10_state R26), the bounds of the parameters (00_scope R6)
and the canonical form of the backing store; and what a safe step is (60_exceptions R115). -/

namespace Sys2Proof.Machine

/-- I1 (10_state R26): the global entry is the first live slot's local view, owned by that slot, or `UNDEF_ENTRY`. -/
def Arbiter.I1 (m : Arbiter) : Prop :=
  ∀ (d : Dir) (p : Page),
    match m.firstLive d p with
    | none => m.gtAt d p = undefEntry
    | some t => m.gtAt d p = m.lvAt t d p ∧ (m.gtAt d p).owner.toNat = t

/-- I2 (10_state R26): a `PT` bit is 1 exactly where the local view holds a grant, and a dead local entry is
`UNDEF_ENTRY`. -/
def Arbiter.I2 (m : Arbiter) : Prop :=
  ∀ (d : Dir) (p : Page) (s : Fin m.nslot),
    (m.ptAt d p s.val = true ↔ (m.lvAt s.val d p).kind ≠ .undef) ∧
      (m.ptAt d p s.val = false → m.lvAt s.val d p = undefEntry)

/-- I3 (10_state R26): only a used slot holds a grant, and it owns its entry. -/
def Arbiter.I3 (m : Arbiter) : Prop :=
  ∀ (d : Dir) (p : Page) (s : Fin m.nslot),
    m.ptAt d p s.val = true → m.usedAt s.val = true ∧ (m.lvAt s.val d p).owner.toNat = s.val

/-- I4 (10_state R26): a free slot holds no grant. -/
def Arbiter.I4 (m : Arbiter) : Prop :=
  ∀ (s : Fin m.nslot), m.usedAt s.val = false → ∀ (d : Dir) (p : Page), m.ptAt d p s.val = false

/-- The bounds of `NSLOT` (00_scope R6). -/
def Arbiter.SlotBounds (m : Arbiter) : Prop := 2 ≤ m.nslot ∧ m.nslot ≤ 128

/-- The arbiter's invariants together. -/
structure Arbiter.Inv (m : Arbiter) : Prop where
  bounds : m.SlotBounds
  i1 : m.I1
  i2 : m.I2
  i3 : m.I3
  i4 : m.I4

/-- The invariant of the machine: the arbiter's invariants and the canonical form of the backing store. -/
structure State.Inv (s : State) : Prop where
  ma : s.ma.Inv
  bs : s.bs.wf = true

/-- Every callback entry of the global table names a slot, so that `SLOT[owner].dev` exists (20_memory R33). -/
def Arbiter.OwnersExist (m : Arbiter) : Prop :=
  ∀ (d : Dir) (p : Page), (m.gtAt d p).kind = .cb → (m.gtAt d p).owner.toNat < m.nslot

/-- What the tables are once the handle `h` has been released on the pages that `released` names (41_memory_arbiter R99): its
grants there are gone, and the global entry of each page it owned is the next live slot's local view. -/
def Arbiter.ReleasedOn (m n : Arbiter) (h : Handle) (released : Dir → Page → Prop) : Prop :=
  n.nslot = m.nslot ∧
  (∀ d p, released d p → n.ptAt d p h.toNat = false ∧ (m.ptAt d p h.toNat = true → n.lvAt h.toNat d p = undefEntry) ∧
    (m.ptAt d p h.toNat = false → n.lvAt h.toNat d p = m.lvAt h.toNat d p) ∧
    (m.ptAt d p h.toNat = true → (m.gtAt d p).owner = h →
      n.gtAt d p = match n.firstLive d p with
        | some t => m.lvAt t d p
        | none => undefEntry) ∧
    (m.ptAt d p h.toNat = false ∨ (m.gtAt d p).owner ≠ h → n.gtAt d p = m.gtAt d p)) ∧
  (∀ d p, ¬released d p → n.ptAt d p h.toNat = m.ptAt d p h.toNat ∧ n.lvAt h.toNat d p = m.lvAt h.toNat d p ∧
    n.gtAt d p = m.gtAt d p) ∧
  (∀ d p t, t ≠ h.toNat → n.ptAt d p t = m.ptAt d p t ∧ n.lvAt t d p = m.lvAt t d p)

/-- A command of the Flag Evaluator, `OP[7:4] = 0` (30_encoding R45). -/
def isFlagCommand (i : Instr) : Bool :=
  match i with
  | .frst => true
  | .frec _ _ _ _ _ => true
  | .fget _ => true
  | .fset _ _ => true
  | .minit => false
  | .mconn _ _ => false
  | .mdisc _ => false
  | .malloc _ _ _ _ _ _ _ => false
  | .mrel _ _ _ _ => false
  | .mread8 _ => false
  | .mwrite8 _ _ => false
  | .mpage _ _ => false

/-- A command that accesses a byte of the bus address space (20_memory R41). -/
def isByteAccess (i : Instr) : Bool :=
  match i with
  | .frst => false
  | .frec _ _ _ _ _ => false
  | .fget _ => false
  | .fset _ _ => false
  | .minit => false
  | .mconn _ _ => false
  | .mdisc _ => false
  | .malloc _ _ _ _ _ _ _ => false
  | .mrel _ _ _ _ => false
  | .mread8 _ => true
  | .mwrite8 _ _ => true
  | .mpage _ _ => false

/-- The effects of a list of commands, one after the response to the one before (20_memory R40). -/
def runCommands (l : List Instr) (s : State) : Host.Outcome State Fault Refusal :=
  match l with
  | [] => .next s
  | i :: rest =>
    match exec i s with
    | .next t => runCommands rest t
    | .fault f => .fault f
    | .refused r => .refused r

/-- The step answers a next state: no fault and no refusal (60_exceptions R115). -/
def Steps (s : State) : Prop := ∃ t, step s = .next t

end Sys2Proof.Machine
end

