-- ==== Sys2Proof/WellFormed.lean ====
section
/-! DEFINITION. The assembler's commands (30_encoding R59): a mnemonic followed by operands written as numbers.
`Instr` has no ill-formed term, since each of its fields has its format's width; a number written in a command line can be
too wide for its field, and `AsmCommand.WellFormed` is the check that it is not (30_encoding R46 to R53). -/

namespace Sys2Proof

/-- The tag operand of `FREC` (30_encoding R47, R59). -/
inductive Tag where
  | add8
  | sub8
  | add16
  | sub16
  deriving DecidableEq, Repr

/-- `SUB` of a tag: 1 for a subtraction (30_encoding R47). -/
def Tag.sub (t : Tag) : Bool :=
  match t with
  | .add8 => false
  | .sub8 => true
  | .add16 => false
  | .sub16 => true

/-- `WIDE` of a tag: 1 for a 16-bit operation (30_encoding R47). -/
def Tag.wide (t : Tag) : Bool :=
  match t with
  | .add8 => false
  | .sub8 => false
  | .add16 => true
  | .sub16 => true

/-- A command line of 30_encoding R59, its operands in the order R59 gives, its numbers as written. -/
inductive AsmCommand where
  | frst
  | frec (mask : Nat) (tag : Tag) (x y : Nat)
  | fget (mask : Nat)
  | fset (mask value : Nat)
  | minit
  | mconn (dev : Nat) (high : Bool)
  | mdisc (h : Nat)
  | malloc (h : Nat) (dir : Dir) (addr len : Nat) (iscb : Bool) (target stride : Nat)
  | mrel (h : Nat) (dir : Dir) (addr len : Nat)
  | mread8 (addr : Nat)
  | mwrite8 (addr data : Nat)
  | mpage (dir : Dir) (addr : Nat)
  deriving DecidableEq, Repr

/-- `n` fits a field of `w` bits. -/
def fits (w n : Nat) : Bool := n < 2 ^ w

/-- Every number of the command line fits the field that carries it (30_encoding R46 to R52). -/
def AsmCommand.WellFormed (a : AsmCommand) : Bool :=
  match a with
  | .frst => true
  | .frec mask _ x y => fits 8 mask && fits 18 x && fits 18 y
  | .fget mask => fits 8 mask
  | .fset mask value => fits 8 mask && fits 8 value
  | .minit => true
  | .mconn dev _ => fits 16 dev
  | .mdisc h => fits 8 h
  | .malloc h _ addr len _ target stride =>
    fits 8 h && fits 16 addr && fits 24 len && fits 32 target && fits 32 stride
  | .mrel h _ addr len => fits 8 h && fits 16 addr && fits 24 len
  | .mread8 addr => fits 16 addr
  | .mwrite8 addr data => fits 16 addr && fits 8 data
  | .mpage _ addr => fits 16 addr

/-- The command a well-formed command line stands for (30_encoding R59). -/
def AsmCommand.toInstr (a : AsmCommand) : Instr :=
  match a with
  | .frst => .frst
  | .frec mask tag x y => .frec (.ofNat 8 mask) tag.wide tag.sub (.ofNat 18 x) (.ofNat 18 y)
  | .fget mask => .fget (.ofNat 8 mask)
  | .fset mask value => .fset (.ofNat 8 mask) (.ofNat 8 value)
  | .minit => .minit
  | .mconn dev high => .mconn high (.ofNat 16 dev)
  | .mdisc h => .mdisc (.ofNat 8 h)
  | .malloc h dir addr len iscb target stride =>
    .malloc (.ofNat 8 h) iscb dir (.ofNat 16 addr) (.ofNat 24 len) (.ofNat 32 target) (.ofNat 32 stride)
  | .mrel h dir addr len => .mrel (.ofNat 8 h) dir (.ofNat 16 addr) (.ofNat 24 len)
  | .mread8 addr => .mread8 (.ofNat 16 addr)
  | .mwrite8 addr data => .mwrite8 (.ofNat 16 addr) (.ofNat 8 data)
  | .mpage dir addr => .mpage dir (.ofNat 16 addr)

end Sys2Proof
end

