-- ==== Sys2Proof/Certificates/Slice0/Obligations.lean ====
section
/-! DEFINITION. The statements for the provers, each from the numbered rules of spec/ that its docstring names. -/

section

open Sys2Proof Sys2Proof.Machine

/-! ## Encoding -/

/-- Command words that 95_test_vectors sections 2 and 3 write out, of each of the seven formats, decode to the commands they
are listed for (30_encoding R46 to R52). -/
def Obligations.SpecWordsDecode : Prop :=
  decode 0x00000000000000000000000000000000#128 = .ok .frst ∧
  decode 0x01FF000000000000000000FE00000002#128 = .ok (.frec 0xFF#8 false false 0xFE#18 0x2#18) ∧
  decode 0x02010000000000000000000000000000#128 = .ok (.fget 0x01#8) ∧
  decode 0x03D74500000000000000000000000000#128 = .ok (.fset 0xD7#8 0x45#8) ∧
  decode 0x11000100020000000000000000000000#128 = .ok (.mconn true 0x0002#16) ∧
  decode 0x12030000000000000000000000000000#128 = .ok (.mdisc 0x03#8) ∧
  decode 0x13010280000004000000005500000000#128 =
    .ok (.malloc 0x01#8 true .r 0x8000#16 0x400#24 0x55#32 0x0#32) ∧
  decode 0x16000061230000A50000000000000000#128 = .ok (.mwrite8 0x6123#16 0xA5#8) ∧
  decode 0x17000161230000000000000000000000#128 = .ok (.mpage .w 0x6123#16)

/-- Every command, at every value its fields admit, is what the decoder reads from its own word (30_encoding sections 1
to 3). -/
def Obligations.DecodeOfEncode : Prop := ∀ i : Instr, decode (encode i) = .ok i

/-- Every word the decoder accepts is the word of the command it reads: no bit of a legal word is dropped (30_encoding
sections 1 to 4). -/
def Obligations.EncodeOfDecode : Prop := ∀ (cw : CommandWord) (i : Instr), decode cw = .ok i → encode i = cw

/-- The decoder accepts exactly the words that match a row of the opcode table, reads the row's own command, and at most
one row matches a word (30_encoding section 3). -/
def Obligations.DecodeAcceptsExactlyTableRows : Prop :=
  (∀ cw : CommandWord, (∃ i, decode cw = .ok i) ↔ ∃ row ∈ opcodeTable, row.matches cw = true) ∧
  (∀ (cw : CommandWord) (i : Instr) (row : TableRow), decode cw = .ok i → row ∈ opcodeTable → row.matches cw = true →
    row.mnemonic = mnemonic i) ∧
  (∀ (cw : CommandWord) (row row' : TableRow), row ∈ opcodeTable → row' ∈ opcodeTable → row.matches cw = true →
    row'.matches cw = true → row = row')

/-- Every command has exactly one well-formed command line of the assembler syntax (30_encoding section 6). -/
def Obligations.AssemblerLineOfEveryCommand : Prop :=
  (∀ i : Instr, ∃ a : AsmCommand, a.WellFormed = true ∧ a.toInstr = i) ∧
  (∀ a b : AsmCommand, a.WellFormed = true → b.WellFormed = true → a.toInstr = b.toInstr → a = b)

/-- The fields of the response word stand where 30_encoding R57 places them, and bits 59:41 are 0. -/
def Obligations.ResponseWordFields : Prop :=
  ∀ (st : Status) (aux : Handle) (iscb : Bool) (val : Pointer),
    rspStatus (responseWord st aux iscb val) = st.code ∧
    (responseWord st aux iscb val).extractLsb' 41 19 = 0#19 ∧
    rspIscb (responseWord st aux iscb val) = BitVec.ofBool iscb ∧
    rspAux (responseWord st aux iscb val) = aux ∧
    rspVal (responseWord st aux iscb val) = val

/-! ## One step -/

/-- A step takes the command word at the front of the port and carries out the command it decodes to (10_state R18,
20_memory R40). -/
def Obligations.StepRunsDecodedCommand : Prop :=
  ∀ (s : State) (cw : CommandWord) (rest : List Input) (i : Instr),
    s.port = .command cw :: rest → decode cw = .ok i → step s = exec i { s with port := rest }

/-- With nothing presented a step changes nothing: state changes only inside a command (40_flag_evaluator R75). The idle
step is the model's choice, log entry 1. -/
def Obligations.IdleStepChangesNothing : Prop := ∀ s : State, s.port = [] → step s = .next s

/-- An illegal command word, one that matches no row of the opcode table, changes no state of the block and none beside
it, performs no external transaction, and is answered by `ST = ILLEGAL` with every other field 0 (30_encoding R55). The
model's own mark on the run is left open here. -/
def Obligations.IllegalWordIsAnsweredAndChangesNothing : Prop :=
  ∀ (s : State) (cw : CommandWord) (rest : List Input),
    s.port = .command cw :: rest → (∀ row ∈ opcodeTable, row.matches cw = false) →
    ∃ mark : Option Reject,
      step s = .next { s with port := rest, rsps := s.rsps ++ [0x1000000000000000#64], mark := mark }

/-- A command word that the decoder rejects leaves its reason as a mark on the run, unless an earlier one already did
(93_implementation_defined U1). The mark is the model's choice, log entry 7. -/
def Obligations.FirstRejectedWordMarksTheRun : Prop :=
  ∀ (s : State) (cw : CommandWord) (rest : List Input) (reason : Reject),
    s.port = .command cw :: rest → decode cw = .error reason →
    ∃ t, step s = .next t ∧ t.mark = if s.mark = none then some reason else s.mark

/-- Hardware reset leaves the block in the state that `FRST` followed by `MINIT` leaves (70_reset_and_hazards R130). -/
def Obligations.HardResetIsFrstThenMinit : Prop :=
  ∀ (s : State) (rest : List Input), s.port = .hardReset :: rest →
    ∃ t u, runCommands [.frst, .minit] { s with port := rest } = .next t ∧ step s = .next u ∧ u.fe = t.fe ∧ u.ma = t.ma

/-- `FRST`, `MINIT` and hardware reset change no byte of the backing store, make no callback and emit no log event, and keep
the parameters (70_reset_and_hazards section 1). That hardware reset takes its input from the port and drives no response is
the model's choice, log entry 1. -/
def Obligations.ResetLeavesTheOutsideAlone : Prop :=
  ∀ s : State,
    (∃ t, exec .frst s = .next t ∧ (∀ p, t.bsRead p = s.bsRead p) ∧ t.trace = s.trace ∧ t.devIn = s.devIn ∧
      t.draws = s.draws ∧ t.cfg = s.cfg) ∧
    (∃ t, exec .minit s = .next t ∧ (∀ p, t.bsRead p = s.bsRead p) ∧ t.trace = s.trace ∧ t.devIn = s.devIn ∧
      t.draws = s.draws ∧ t.cfg = s.cfg) ∧
    ∀ rest, s.port = .hardReset :: rest →
      ∃ t, step s = .next t ∧ (∀ p, t.bsRead p = s.bsRead p) ∧ t.trace = s.trace ∧ t.devIn = s.devIn ∧
        t.draws = s.draws ∧ t.cfg = s.cfg ∧ t.port = rest ∧ t.rsps = s.rsps

/-- A write of the backing store from outside changes the byte at its pointer and nothing else (20_memory R32). -/
def Obligations.OutsideWriteChangesOneByte : Prop :=
  ∀ (s : State) (p : Pointer) (v : Byte) (rest : List Input), s.port = .outsideWrite p v :: rest →
    ∃ bs, step s = .next { s with port := rest, bs := bs } ∧
      ∀ q : Pointer, State.bsRead { s with bs := bs } q = if q = p then v else s.bsRead q

/-- The reset table: every element of the block at power-up, for every `F_RESET`, `UNDEF_READ` and `NSLOT`, and the state
after reset is the power-up state with this hardware's parameters (70_reset_and_hazards R131). -/
def Obligations.ResetTable : Prop :=
  State.reset = State.powerUp Config.params 8 ∧
  ∀ (c : Params) (n : Nat),
    (State.powerUp c n).fe = { f := c.fReset, fx := 0#18, fy := 0#18, sub := false, wide := false, dm := 0#8 } ∧
    (State.powerUp c n).ma.nslot = n ∧
    (∀ t, (State.powerUp c n).ma.usedAt t = false) ∧
    (∀ t, t < n → (State.powerUp c n).ma.devAt t = some 0#16) ∧
    (∀ d p, (State.powerUp c n).ma.gtAt d p = undefEntry) ∧
    (∀ t d p, (State.powerUp c n).ma.lvAt t d p = undefEntry) ∧
    (∀ d p t, (State.powerUp c n).ma.ptAt d p t = false)

/-! ## The Flag Evaluator -/

/-- `FRST` writes all six elements and drops dirty flags unresolved (40_flag_evaluator R69). -/
def Obligations.FrstResult : Prop :=
  ∀ s : State,
    exec .frst s = .next { s with
      fe := { f := s.cfg.fReset, fx := 0#18, fy := 0#18, sub := false, wide := false, dm := 0#8 }
      rsps := s.rsps ++ [responseWord .ok 0#8 false 0#32] }

/-- `FREC` writes the recomputed value of the old operands to exactly the dirty flags outside its mask, then records
(40_flag_evaluator R70). Like the next two it gives `F` at dirty positions too, as the rules do; what a client can observe is
`FlagVal`, of which `LazyFlagsAreEagerFlags` speaks (93_implementation_defined U4, log entry 10). -/
def Obligations.FrecResult : Prop :=
  ∀ (mask : Byte) (wide sub : Bool) (x y : Operand) (s : State),
    ∃ f : Byte,
      (∀ k : Fin 8, f.getLsbD k.val =
        if s.fe.dm.getLsbD k.val = true ∧ mask.getLsbD k.val = false then s.fe.recompute k else s.fe.f.getLsbD k.val) ∧
      exec (.frec mask wide sub x y) s = .next { s with
        fe := { f := f, fx := x, fy := y, sub := sub, wide := wide, dm := mask }
        rsps := s.rsps ++ [responseWord .ok 0#8 false 0#32] }

/-- `FGET` resolves exactly the dirty flags of its mask and answers `F & MASK` (40_flag_evaluator R71). -/
def Obligations.FgetResult : Prop :=
  ∀ (mask : Byte) (s : State),
    ∃ f : Byte,
      (∀ k : Fin 8, f.getLsbD k.val =
        if mask.getLsbD k.val = true ∧ s.fe.dm.getLsbD k.val = true then s.fe.recompute k else s.fe.f.getLsbD k.val) ∧
      exec (.fget mask) s = .next { s with
        fe := { s.fe with f := f, dm := s.fe.dm &&& ~~~mask }
        rsps := s.rsps ++ [responseWord .ok 0#8 false ((f &&& mask).setWidth 32)] }

/-- The answer of `FGET` is the architectural value of each flag of its mask and 0 at the other flags
(40_flag_evaluator section 2, 10_state R15). -/
def Obligations.FgetAnswersFlagVal : Prop :=
  ∀ (mask : Byte) (s : State),
    ∃ t w, exec (.fget mask) s = .next t ∧ t.rsps = s.rsps ++ [w] ∧
      ∀ k : Fin 8, (rspVal w).getLsbD k.val = (mask.getLsbD k.val && s.fe.flagVal k)

/-- `FSET` takes the value's bits under its mask and cleans them; bits of the value outside the mask are ignored
(40_flag_evaluator R72). -/
def Obligations.FsetResult : Prop :=
  ∀ (mask value : Byte) (s : State),
    ∃ f : Byte,
      (∀ k : Fin 8, f.getLsbD k.val =
        if mask.getLsbD k.val = true then value.getLsbD k.val else s.fe.f.getLsbD k.val) ∧
      exec (.fset mask value) s = .next { s with
        fe := { s.fe with f := f, dm := s.fe.dm &&& ~~~mask }
        rsps := s.rsps ++ [responseWord .ok 0#8 false 0#32] }

/-- The eight flag functions on machine words: for an 8-bit operation over 10-bit and for a 16-bit one over 18-bit wrapping
arithmetic, with the bits of the result that 40_flag_evaluator R66 fills in. -/
def Obligations.RecomputeBitFormulas : Prop :=
  ∀ (fx fy : Operand) (sub : Bool),
    (let x : BitVec 10 := (fx.setWidth 9).setWidth 10
     let y : BitVec 10 := (fy.setWidth 9).setWidth 10
     let r : BitVec 10 := if sub then x - y else x + y
     let t : BitVec 10 := x ^^^ y ^^^ r
     recomputeOn fx fy sub false 0 = r.getLsbD 9 ∧
     recomputeOn fx fy sub false 1 = sub ∧
     recomputeOn fx fy sub false 2 =
       (if sub then ((x ^^^ y) &&& (x ^^^ r)).getLsbD 8 else ((x ^^^ r) &&& (y ^^^ r)).getLsbD 8) ∧
     recomputeOn fx fy sub false 3 = r.getLsbD 4 ∧
     recomputeOn fx fy sub false 4 = t.getLsbD 5 ∧
     recomputeOn fx fy sub false 5 = r.getLsbD 6 ∧
     recomputeOn fx fy sub false 6 = decide (r.extractLsb' 1 8 = 0#8) ∧
     recomputeOn fx fy sub false 7 = r.getLsbD 8) ∧
    (let x : BitVec 18 := (fx.setWidth 17).setWidth 18
     let y : BitVec 18 := (fy.setWidth 17).setWidth 18
     let r : BitVec 18 := if sub then x - y else x + y
     let t : BitVec 18 := x ^^^ y ^^^ r
     recomputeOn fx fy sub true 0 = r.getLsbD 17 ∧
     recomputeOn fx fy sub true 1 = sub ∧
     recomputeOn fx fy sub true 2 =
       (if sub then ((x ^^^ y) &&& (x ^^^ r)).getLsbD 16 else ((x ^^^ r) &&& (y ^^^ r)).getLsbD 16) ∧
     recomputeOn fx fy sub true 3 = r.getLsbD 12 ∧
     recomputeOn fx fy sub true 4 = t.getLsbD 13 ∧
     recomputeOn fx fy sub true 5 = r.getLsbD 14 ∧
     recomputeOn fx fy sub true 6 = decide (r.extractLsb' 1 16 = 0#16) ∧
     recomputeOn fx fy sub true 7 = r.getLsbD 16)

/-- With the scaled operands of 40_flag_evaluator R65 the flags of an addition are those of the eager reference, for both
widths, all operands and both carries (40_flag_evaluator section 4). -/
def Obligations.AdditionFlagsAreEager : Prop :=
  (∀ (a b : BitVec 8) (cin : Bool),
    recomputeByte (scaled a cin) (scaled b cin) false false = eagerAdd 8 a.toNat b.toNat cin) ∧
  (∀ (a b : BitVec 16) (cin : Bool),
    recomputeByte (scaled a cin) (scaled b cin) false true = eagerAdd 16 a.toNat b.toNat cin)

/-- With the scaled operands of 40_flag_evaluator R65 the flags of a subtraction are those of the eager reference, for both
widths, all operands and both borrows (40_flag_evaluator section 4). -/
def Obligations.SubtractionFlagsAreEager : Prop :=
  (∀ (a b : BitVec 8) (cin : Bool),
    recomputeByte (scaled a false) (scaled b cin) true false = eagerSub 8 a.toNat b.toNat cin) ∧
  (∀ (a b : BitVec 16) (cin : Bool),
    recomputeByte (scaled a false) (scaled b cin) true true = eagerSub 16 a.toNat b.toNat cin)

/-- Resolving a dirty flag writes its recomputed value and cleans it, touches nothing else, and leaves every architectural
flag value as it was (40_flag_evaluator section 1). -/
def Obligations.ResolveBitKeepsFlagValues : Prop :=
  ∀ (fe : FlagEvaluator) (k : Fin 8), fe.dm.getLsbD k.val = true →
    (fe.resolveBit k).f.getLsbD k.val = fe.recompute k ∧ (fe.resolveBit k).dm.getLsbD k.val = false ∧
    (∀ j : Fin 8, j ≠ k → (fe.resolveBit k).f.getLsbD j.val = fe.f.getLsbD j.val ∧
      (fe.resolveBit k).dm.getLsbD j.val = fe.dm.getLsbD j.val) ∧
    (fe.resolveBit k).fx = fe.fx ∧ (fe.resolveBit k).fy = fe.fy ∧ (fe.resolveBit k).sub = fe.sub ∧
    (fe.resolveBit k).wide = fe.wide ∧
    ∀ j : Fin 8, (fe.resolveBit k).flagVal j = fe.flagVal j

/-- The guarantee: over every sequence of commands, from every state, the lazily kept flags are those of the eager machine
that starts with the same flag byte (40_flag_evaluator section 3). -/
def Obligations.LazyFlagsAreEagerFlags : Prop :=
  ∀ (l : List Instr) (s t : State), runCommands l s = .next t →
    t.fe.flagValByte = l.foldl (eagerNext s.cfg.fReset) s.fe.flagValByte

/-- Over every sequence of commands from power-up, an `FGET` that follows answers what the eager machine, started at
`F_RESET`, answers (40_flag_evaluator section 3). -/
def Obligations.LazyAnswerIsEagerAnswer : Prop :=
  ∀ (l : List Instr) (mask : Byte) (c : Params) (n : Nat) (t : State), runCommands l (State.powerUp c n) = .next t →
    ∃ u, exec (.fget mask) t = .next u ∧
      u.rsps = t.rsps ++
        [responseWord .ok 0#8 false ((l.foldl (eagerNext c.fReset) c.fReset &&& mask).setWidth 32)]

/-- A command changes a flag's architectural value only as `FRST` does all, `FREC` and `FSET` those of their mask
(40_flag_evaluator section 3). -/
def Obligations.FlagValueFrame : Prop :=
  ∀ (i : Instr) (s t : State) (k : Fin 8), exec i s = .next t → i ≠ .frst →
    (∀ mask wide sub x y, i = .frec mask wide sub x y → mask.getLsbD k.val = false) →
    (∀ mask value, i = .fset mask value → mask.getLsbD k.val = false) →
    t.fe.flagVal k = s.fe.flagVal k

/-- `REC.ADD8` and `REC.ADC8` leave the eager addition's flag byte (40_flag_evaluator R80). -/
def Obligations.RecordedByteAddition : Prop :=
  ∀ (a b : BitVec 8) (c : Bool) (s : State),
    (∃ t, runCommands (Pseudo.recAdd8 a b).expand s = .next t ∧ t.fe.flagValByte = eagerAdd 8 a.toNat b.toNat false) ∧
    (∃ t, runCommands (Pseudo.recAdc8 a b c).expand s = .next t ∧ t.fe.flagValByte = eagerAdd 8 a.toNat b.toNat c)

/-- `REC.SUB8` and `REC.SBC8` leave the eager subtraction's flag byte (40_flag_evaluator R81). -/
def Obligations.RecordedByteSubtraction : Prop :=
  ∀ (a b : BitVec 8) (c : Bool) (s : State),
    (∃ t, runCommands (Pseudo.recSub8 a b).expand s = .next t ∧ t.fe.flagValByte = eagerSub 8 a.toNat b.toNat false) ∧
    (∃ t, runCommands (Pseudo.recSbc8 a b c).expand s = .next t ∧ t.fe.flagValByte = eagerSub 8 a.toNat b.toNat c)

/-- `REC.CP8` leaves the subtraction's flags but for `Y` and `X`, which copy the second operand, whatever was dirty before
(40_flag_evaluator R82). -/
def Obligations.RecordedCompare : Prop :=
  ∀ (a b : BitVec 8) (s : State),
    ∃ t, runCommands (Pseudo.recCp8 a b).expand s = .next t ∧
      t.fe.flagValByte = (eagerSub 8 a.toNat b.toNat false &&& 0xD7#8) ||| (b &&& 0x28#8)

/-- `REC.INC8` and `REC.DEC8` leave the carry's architectural value, `REC.NEG8` writes all eight flags (40_flag_evaluator
R83). -/
def Obligations.RecordedIncrementDecrementNegate : Prop :=
  ∀ (a : BitVec 8) (s : State),
    (∃ t, runCommands (Pseudo.recInc8 a).expand s = .next t ∧
      t.fe.flagValByte = (eagerAdd 8 a.toNat 1 false &&& 0xFE#8) ||| (s.fe.flagValByte &&& 0x01#8)) ∧
    (∃ t, runCommands (Pseudo.recDec8 a).expand s = .next t ∧
      t.fe.flagValByte = (eagerSub 8 a.toNat 1 false &&& 0xFE#8) ||| (s.fe.flagValByte &&& 0x01#8)) ∧
    (∃ t, runCommands (Pseudo.recNeg8 a).expand s = .next t ∧ t.fe.flagValByte = eagerSub 8 0 a.toNat false)

/-- `REC.ADD16` leaves `S`, `Z` and `PV` and writes the other five flags from the 16-bit addition (40_flag_evaluator R84). -/
def Obligations.RecordedWordAddition : Prop :=
  ∀ (a b : BitVec 16) (s : State),
    ∃ t, runCommands (Pseudo.recAdd16 a b).expand s = .next t ∧
      t.fe.flagValByte = (eagerAdd 16 a.toNat b.toNat false &&& 0x3B#8) ||| (s.fe.flagValByte &&& 0xC4#8)

/-- `REC.ADC16` and `REC.SBC16` write all eight flags from the 16-bit operation (40_flag_evaluator R85). -/
def Obligations.RecordedWordCarryOperations : Prop :=
  ∀ (a b : BitVec 16) (c : Bool) (s : State),
    (∃ t, runCommands (Pseudo.recAdc16 a b c).expand s = .next t ∧ t.fe.flagValByte = eagerAdd 16 a.toNat b.toNat c) ∧
    (∃ t, runCommands (Pseudo.recSbc16 a b c).expand s = .next t ∧ t.fe.flagValByte = eagerSub 16 a.toNat b.toNat c)

/-- The read pseudo-instructions answer the one flag they name at its own position, `FGETF` the whole flag byte, and `FSETF v`
makes `v` the flag byte with no flag dirty (40_flag_evaluator R86). -/
def Obligations.FlagReadAndWritePseudoInstructions : Prop :=
  ∀ (s : State) (v : Byte),
    (∀ q k, (q, k) ∈ ([(.fgetc, 0), (.fgetn, 1), (.fgetpv, 2), (.fgeth, 4), (.fgetz, 6), (.fgets, 7)] :
        List (Pseudo × Fin 8)) →
      ∃ t w, runCommands q.expand s = .next t ∧ t.rsps = s.rsps ++ [w] ∧
        rspVal w = if s.fe.flagVal k = true then BitVec.ofNat 32 (2 ^ k.val) else 0#32) ∧
    (∃ t w, runCommands Pseudo.fgetf.expand s = .next t ∧ t.rsps = s.rsps ++ [w] ∧
      rspVal w = s.fe.flagValByte.setWidth 32) ∧
    (∃ t, runCommands (Pseudo.fsetf v).expand s = .next t ∧ t.fe.flagValByte = v ∧ t.fe.dm = 0#8)

/-! ## The two units -/

/-- A command of the Flag Evaluator leaves everything but its six elements and the responses: the arbiter, every byte of the
backing store, the inputs, the external transactions and the mark (10_state R19, 40_flag_evaluator R74). -/
def Obligations.FlagCommandFrame : Prop :=
  ∀ (i : Instr) (s t : State), isFlagCommand i = true → exec i s = .next t →
    t.cfg = s.cfg ∧ t.ma = s.ma ∧ (∀ p, t.bsRead p = s.bsRead p) ∧ t.port = s.port ∧ t.devIn = s.devIn ∧
    t.draws = s.draws ∧ t.trace = s.trace ∧ t.mark = s.mark

/-- A table command or `MPAGE` leaves the Flag Evaluator, every byte of the backing store, the inputs, the external
transactions and the mark; `MPAGE` leaves the tables too (41_memory_arbiter R95 to R99, R104). -/
def Obligations.TableCommandFrame : Prop :=
  ∀ (i : Instr) (s t : State), isFlagCommand i = false → isByteAccess i = false → exec i s = .next t →
    t.cfg = s.cfg ∧ t.fe = s.fe ∧ (∀ p, t.bsRead p = s.bsRead p) ∧ t.port = s.port ∧ t.devIn = s.devIn ∧
    t.draws = s.draws ∧ t.trace = s.trace ∧ t.mark = s.mark ∧ (∀ d a, i = .mpage d a → t.ma = s.ma)

/-- A byte access leaves the Flag Evaluator and every table; `MREAD8` leaves every byte of the backing store, and `MWRITE8`
every byte but the one at the pointer its raw entry gives, all of them where the entry is no raw pointer (20_memory R36,
R37, 41_memory_arbiter R100, R101). -/
def Obligations.ByteAccessFrame : Prop :=
  ∀ (a : Address) (v : Byte) (s t : State),
    (exec (.mread8 a) s = .next t →
      t.cfg = s.cfg ∧ t.fe = s.fe ∧ t.ma = s.ma ∧ t.port = s.port ∧ t.mark = s.mark ∧
      ∀ p, t.bsRead p = s.bsRead p) ∧
    (exec (.mwrite8 a v) s = .next t →
      t.cfg = s.cfg ∧ t.fe = s.fe ∧ t.ma = s.ma ∧ t.port = s.port ∧ t.devIn = s.devIn ∧ t.draws = s.draws ∧
      t.mark = s.mark ∧
      ((s.ma.resolve .w a).kind = .ptr → ∀ p, p ≠ pointerOf (s.ma.resolve .w a) a → t.bsRead p = s.bsRead p) ∧
      ((s.ma.resolve .w a).kind ≠ .ptr → ∀ p, t.bsRead p = s.bsRead p))

/-- The two units share no state: a Flag Evaluator command does the same beside any arbiter and backing store, and an
arbiter command the same beside any Flag Evaluator (00_scope section 1, 10_state section 2). -/
def Obligations.UnitsShareNoState : Prop :=
  (∀ (i : Instr) (s t : State) (m : Arbiter) (bs : Memory) (devIn : List Byte) (draws : Nat),
    isFlagCommand i = true → exec i s = .next t →
    exec i { s with ma := m, bs := bs, devIn := devIn, draws := draws } =
      .next { t with ma := m, bs := bs, devIn := devIn, draws := draws }) ∧
  (∀ (i : Instr) (s t : State) (fe : FlagEvaluator),
    isFlagCommand i = false → exec i s = .next t → exec i { s with fe := fe } = .next { t with fe := fe })

/-! ## The Memory Arbiter -/

/-- `MINIT` frees every slot, empties every table and touches nothing else (41_memory_arbiter R95). -/
def Obligations.MinitResult : Prop :=
  ∀ s : State, ∃ m : Arbiter,
    exec .minit s = .next { s with ma := m, rsps := s.rsps ++ [responseWord .ok 0#8 false 0#32] } ∧
    m.nslot = s.ma.nslot ∧ (∀ t, m.usedAt t = false) ∧ (∀ t, t < m.nslot → m.devAt t = some 0#16) ∧
    (∀ d p, m.gtAt d p = undefEntry) ∧ (∀ t d p, m.lvAt t d p = undefEntry) ∧ (∀ d p t, m.ptAt d p t = false)

/-- `MCONN` takes the lowest free slot for `HI` and the highest for `LO`, writes that slot alone and answers its index; with
no free slot it changes nothing and answers `NOSLOT` with the invalid handle (41_memory_arbiter R96). -/
def Obligations.MconnResult : Prop :=
  ∀ (high : Bool) (dev : DeviceId) (s : State),
    ((∀ k, k < s.ma.nslot → s.ma.usedAt k = true) →
      exec (.mconn high dev) s = .next { s with rsps := s.rsps ++ [responseWord .noSlot 0xFF#8 false 0#32] }) ∧
    ((∃ k, k < s.ma.nslot ∧ s.ma.usedAt k = false) →
      ∃ k m, k < s.ma.nslot ∧ s.ma.usedAt k = false ∧
        (high = true → ∀ j, j < k → s.ma.usedAt j = true) ∧
        (high = false → ∀ j, k < j → j < s.ma.nslot → s.ma.usedAt j = true) ∧
        exec (.mconn high dev) s = .next { s with
          ma := m, rsps := s.rsps ++ [responseWord .ok (BitVec.ofNat 8 k) false 0#32] } ∧
        m.nslot = s.ma.nslot ∧ m.usedAt k = true ∧ m.devAt k = some dev ∧
        (∀ j, j ≠ k → m.usedAt j = s.ma.usedAt j ∧ m.devAt j = s.ma.devAt j) ∧
        (∀ d p, m.gtAt d p = s.ma.gtAt d p) ∧ (∀ j d p, m.lvAt j d p = s.ma.lvAt j d p) ∧
        (∀ d p j, m.ptAt d p j = s.ma.ptAt d p j))

/-- `MDISC`: a bad handle and the backstop change nothing and are reported in that order; any other handle is released on
every page of both directions and its slot is freed (41_memory_arbiter R97). -/
def Obligations.MdiscResult : Prop :=
  ∀ (h : Handle) (s : State),
    (s.ma.nslot ≤ h.toNat ∨ s.ma.usedAt h.toNat = false →
      exec (.mdisc h) s = .next { s with rsps := s.rsps ++ [responseWord .badHandle 0#8 false 0#32] }) ∧
    (s.ma.usedAt h.toNat = true → h.toNat + 1 = s.ma.nslot →
      exec (.mdisc h) s = .next { s with rsps := s.rsps ++ [responseWord .backstop 0#8 false 0#32] }) ∧
    (s.ma.usedAt h.toNat = true → h.toNat + 1 < s.ma.nslot →
      ∃ m, exec (.mdisc h) s = .next { s with ma := m, rsps := s.rsps ++ [responseWord .ok 0#8 false 0#32] } ∧
        Arbiter.ReleasedOn s.ma m h (fun _ _ => True) ∧
        m.usedAt h.toNat = false ∧ m.devAt h.toNat = some 0#16 ∧
        ∀ t, t ≠ h.toNat → m.usedAt t = s.ma.usedAt t ∧ m.devAt t = s.ma.devAt t)

/-- `MALLOC`: a bad handle and a bad range change nothing and are reported in that order; otherwise every covered page gets
its entry in the local view and a grant, and shows it globally exactly where no higher-priority slot is live
(41_memory_arbiter R98). -/
def Obligations.MallocResult : Prop :=
  ∀ (h : Handle) (iscb : Bool) (d : Dir) (addr : Address) (len : BitVec 24) (target stride : Pointer) (s : State),
    (s.ma.nslot ≤ h.toNat ∨ s.ma.usedAt h.toNat = false →
      exec (.malloc h iscb d addr len target stride) s =
        .next { s with rsps := s.rsps ++ [responseWord .badHandle 0#8 false 0#32] }) ∧
    (h.toNat < s.ma.nslot → s.ma.usedAt h.toNat = true → len.toNat > 65536 ∨ addr.toNat + len.toNat > 65536 →
      exec (.malloc h iscb d addr len target stride) s =
        .next { s with rsps := s.rsps ++ [responseWord .badArg 0#8 false 0#32] }) ∧
    (h.toNat < s.ma.nslot → s.ma.usedAt h.toNat = true → addr.toNat + len.toNat ≤ 65536 →
      ∃ m, exec (.malloc h iscb d addr len target stride) s =
          .next { s with ma := m, rsps := s.rsps ++ [responseWord .ok 0#8 false 0#32] } ∧
        m.nslot = s.ma.nslot ∧ (∀ t, m.usedAt t = s.ma.usedAt t ∧ m.devAt t = s.ma.devAt t) ∧
        (∀ p ∈ cover addr len,
          let e : Entry :=
            { kind := if iscb then .cb else .ptr
              target := target + BitVec.ofNat 32 (p.val - addr.toNat / 1024) * stride
              owner := h }
          m.lvAt h.toNat d p = e ∧ m.ptAt d p h.toNat = true ∧
          ((∀ t, t < h.toNat → s.ma.ptAt d p t = false) → m.gtAt d p = e) ∧
          ((∃ t, t < h.toNat ∧ s.ma.ptAt d p t = true) → m.gtAt d p = s.ma.gtAt d p)) ∧
        (∀ d' p, d' ≠ d ∨ p ∉ cover addr len →
          m.lvAt h.toNat d' p = s.ma.lvAt h.toNat d' p ∧ m.ptAt d' p h.toNat = s.ma.ptAt d' p h.toNat ∧
          m.gtAt d' p = s.ma.gtAt d' p) ∧
        (∀ t d' p, t ≠ h.toNat → m.lvAt t d' p = s.ma.lvAt t d' p ∧ m.ptAt d' p t = s.ma.ptAt d' p t))

/-- `MREL`: a bad handle, a bad range and the backstop change nothing and are reported in that order; otherwise the handle
is released on the covered pages of one direction (41_memory_arbiter R99). -/
def Obligations.MrelResult : Prop :=
  ∀ (h : Handle) (d : Dir) (addr : Address) (len : BitVec 24) (s : State),
    (s.ma.nslot ≤ h.toNat ∨ s.ma.usedAt h.toNat = false →
      exec (.mrel h d addr len) s = .next { s with rsps := s.rsps ++ [responseWord .badHandle 0#8 false 0#32] }) ∧
    (h.toNat < s.ma.nslot → s.ma.usedAt h.toNat = true → len.toNat > 65536 ∨ addr.toNat + len.toNat > 65536 →
      exec (.mrel h d addr len) s = .next { s with rsps := s.rsps ++ [responseWord .badArg 0#8 false 0#32] }) ∧
    (s.ma.usedAt h.toNat = true → addr.toNat + len.toNat ≤ 65536 → h.toNat + 1 = s.ma.nslot →
      exec (.mrel h d addr len) s = .next { s with rsps := s.rsps ++ [responseWord .backstop 0#8 false 0#32] }) ∧
    (s.ma.usedAt h.toNat = true → addr.toNat + len.toNat ≤ 65536 → h.toNat + 1 < s.ma.nslot →
      ∃ m, exec (.mrel h d addr len) s =
          .next { s with ma := m, rsps := s.rsps ++ [responseWord .ok 0#8 false 0#32] } ∧
        Arbiter.ReleasedOn s.ma m h (fun d' p => d' = d ∧ p ∈ cover addr len) ∧
        ∀ t, m.usedAt t = s.ma.usedAt t ∧ m.devAt t = s.ma.devAt t)

/-- `MREAD8` through each kind of entry: the byte of the backing store, the device's answer, or `UNDEF_READ`, with the one
transaction each kind makes (20_memory R36, 41_memory_arbiter R100). -/
def Obligations.Mread8Result : Prop :=
  ∀ (a : Address) (s : State) (e : Entry), e = s.ma.gtAt .r (pageOf a) →
    (e.kind = .ptr →
      exec (.mread8 a) s = .next { s with
        trace := s.trace ++ [.bsRead (e.target + BitVec.ofNat 32 (a.toNat % 1024))
          (s.bsRead (e.target + BitVec.ofNat 32 (a.toNat % 1024)))]
        rsps := s.rsps ++
          [responseWord .ok 0#8 false ((s.bsRead (e.target + BitVec.ofNat 32 (a.toNat % 1024))).setWidth 32)] }) ∧
    (e.kind = .cb → e.owner.toNat < s.ma.nslot →
      ∃ dev, s.ma.devAt e.owner.toNat = some dev ∧
        exec (.mread8 a) s = .next { s.dropDevAnswer with
          trace := s.trace ++ [.devRead dev e.target a s.devAnswer]
          rsps := s.rsps ++ [responseWord .ok 0#8 false (s.devAnswer.setWidth 32)] }) ∧
    (e.kind = .undef →
      exec (.mread8 a) s = .next { s with
        trace := s.trace ++ [.log .rd a]
        rsps := s.rsps ++ [responseWord .ok 0#8 false (s.cfg.undefRead.setWidth 32)] })

/-- `MWRITE8` through each kind of entry: the byte lands in the backing store and nowhere else, goes to the device, or is
dropped, with the one transaction each kind makes (20_memory R37, 41_memory_arbiter R101). -/
def Obligations.Mwrite8Result : Prop :=
  ∀ (a : Address) (v : Byte) (s : State) (e : Entry), e = s.ma.gtAt .w (pageOf a) →
    (e.kind = .ptr →
      ∃ bs, exec (.mwrite8 a v) s = .next { s with
          bs := bs
          trace := s.trace ++ [.bsWrite (e.target + BitVec.ofNat 32 (a.toNat % 1024)) v]
          rsps := s.rsps ++ [responseWord .ok 0#8 false 0#32] } ∧
        ∀ q, State.bsRead { s with bs := bs } q =
          if q = e.target + BitVec.ofNat 32 (a.toNat % 1024) then v else s.bsRead q) ∧
    (e.kind = .cb → e.owner.toNat < s.ma.nslot →
      ∃ dev, s.ma.devAt e.owner.toNat = some dev ∧
        exec (.mwrite8 a v) s = .next { s with
          trace := s.trace ++ [.devWrite dev e.target a v]
          rsps := s.rsps ++ [responseWord .ok 0#8 false 0#32] }) ∧
    (e.kind = .undef →
      exec (.mwrite8 a v) s = .next { s with
        trace := s.trace ++ [.log .wr a]
        rsps := s.rsps ++ [responseWord .ok 0#8 false 0#32] })

/-- `MPAGE` reports the global entry of the page and does nothing else; the undefined stub and a callback report `ISCB = 1`
(41_memory_arbiter R104). -/
def Obligations.MpageResult : Prop :=
  ∀ (d : Dir) (a : Address) (s : State) (e : Entry) (p : Page), p.val = a.toNat / 1024 → e = s.ma.gtAt d p →
    exec (.mpage d a) s = .next { s with
      rsps := s.rsps ++ [responseWord .ok e.owner (decide (e.kind ≠ .ptr)) e.target] }

/-- A callback entry whose owner is no slot, which no sound state holds, stops both byte accesses with the model's one fault
(the model's choice, log entry 8). -/
def Obligations.CallbackWithoutSlotFaults : Prop :=
  ∀ (a : Address) (v : Byte) (s : State),
    ((s.ma.resolve .r a).kind = .cb → s.ma.nslot ≤ (s.ma.resolve .r a).owner.toNat →
      exec (.mread8 a) s = .fault (.ownerNotASlot (s.ma.resolve .r a).owner)) ∧
    ((s.ma.resolve .w a).kind = .cb → s.ma.nslot ≤ (s.ma.resolve .w a).owner.toNat →
      exec (.mwrite8 a v) s = .fault (.ownerNotASlot (s.ma.resolve .w a).owner))

/-- `Cover` is the ascending list of the pages that hold at least one byte of the range (41_memory_arbiter R94). -/
def Obligations.CoverIsEveryTouchedPage : Prop :=
  ∀ (addr : Address) (len : BitVec 24),
    (argCheck addr len = true ↔ len.toNat ≤ 65536 ∧ addr.toNat + len.toNat ≤ 65536) ∧
    (argCheck addr len = true →
      (∀ p : Page, p ∈ cover addr len ↔ ∃ b, addr.toNat ≤ b ∧ b < addr.toNat + len.toNat ∧ b / 1024 = p.val) ∧
      (cover addr len).Pairwise (fun p q => p < q))

/-- `MALLOCP` walks a contiguous buffer, page `i` of the range at `ptr + 1024*i`, and `MALLOCF` gives every covered page the
same callback identifier (41_memory_arbiter R105). -/
def Obligations.PageAllocationPseudoInstructions : Prop :=
  ∀ (h : Handle) (d : Dir) (addr : Address) (len : BitVec 24) (ptr : Pointer) (s : State),
    h.toNat < s.ma.nslot → s.ma.usedAt h.toNat = true → addr.toNat + len.toNat ≤ 65536 →
    (∃ t, runCommands (Pseudo.mallocp h d addr len ptr).expand s = .next t ∧
      ∀ p ∈ cover addr len, t.ma.lvAt h.toNat d p =
        { kind := .ptr, target := ptr + BitVec.ofNat 32 (1024 * (p.val - addr.toNat / 1024)), owner := h }) ∧
    (∃ t, runCommands (Pseudo.mallocf h d addr len ptr).expand s = .next t ∧
      ∀ p ∈ cover addr len, t.ma.lvAt h.toNat d p = { kind := .cb, target := ptr, owner := h })

/-! ## Whole-machine properties -/

/-- The state after reset is sound, for every parameter within the bounds of 00_scope R6 (10_state section 3). -/
def Obligations.ResetIsSound : Prop :=
  State.reset.Inv ∧ ∀ (c : Params) (n : Nat), 2 ≤ n → n ≤ 128 → (State.powerUp c n).Inv

/-- Every step from a sound state leads to a sound state: the arbiter's invariants I1 to I4, the slot bounds and the
canonical form of the backing store (10_state section 3, 41_memory_arbiter section 3). -/
def Obligations.StepKeepsSoundness : Prop := ∀ s t : State, s.Inv → step s = .next t → t.Inv

/-- From a sound state every step answers a next state: no command raises an exception (60_exceptions section 1,
70_reset_and_hazards section 4). -/
def Obligations.SoundStatesStep : Prop := ∀ s : State, s.Inv → Steps s

/-- In a sound arbiter the global table is a function of the local views and grants: the entry of the first live slot, or
`UNDEF_ENTRY` (41_memory_arbiter section 3). -/
def Obligations.GlobalTableIsVisibleEntry : Prop :=
  ∀ (m : Arbiter) (d : Dir) (p : Page), m.Inv →
    (∀ t, m.ptAt d p t = true → (∀ j, j < t → m.ptAt d p j = false) →
      m.gtAt d p = m.lvAt t d p ∧ (m.gtAt d p).kind ≠ .undef ∧ (m.gtAt d p).owner.toNat = t) ∧
    ((∀ t, m.ptAt d p t = false) → m.gtAt d p = undefEntry)

/-- Every command ends with exactly one response word (30_encoding section 5). -/
def Obligations.EveryCommandDrivesOneResponse : Prop :=
  ∀ (i : Instr) (s t : State), exec i s = .next t → ∃ w, t.rsps = s.rsps ++ [w]

/-- A command that ends with `ST` other than `OK` has changed no state of the block and caused no external transaction
(60_exceptions section 1). -/
def Obligations.FailedCommandChangesNothing : Prop :=
  ∀ (i : Instr) (s t : State) (w : ResponseWord), exec i s = .next t → t.rsps = s.rsps ++ [w] →
    rspStatus w ≠ 0#4 → t = { s with rsps := s.rsps ++ [w] }

/-- Each byte access makes exactly one external transaction (20_memory section 4, R41) and every other command none
(40_flag_evaluator section 2, 41_memory_arbiter section 2, 60_exceptions section 2, R120). -/
def Obligations.OneTransactionPerAccess : Prop :=
  ∀ (i : Instr) (s t : State), exec i s = .next t →
    (isByteAccess i = true → ∃ e, t.trace = s.trace ++ [e]) ∧ (isByteAccess i = false → t.trace = s.trace)

/-- An access resolves through the global table alone: two states that agree on it, on the device behind each slot and on
what is outside the block answer alike, whatever their local views, grants and used bits (20_memory R35). -/
def Obligations.AccessReadsGlobalTableOnly : Prop :=
  ∀ (a : Address) (v : Byte) (s t : State) (m : Arbiter), (∀ d, m.gtAt d (pageOf a) = s.ma.gtAt d (pageOf a)) →
    (∀ k, m.devAt k = s.ma.devAt k) →
    (exec (.mread8 a) s = .next t → exec (.mread8 a) { s with ma := m } = .next { t with ma := m }) ∧
    (exec (.mwrite8 a v) s = .next t → exec (.mwrite8 a v) { s with ma := m } = .next { t with ma := m })

/-- A read of a raw-pointer page returns the byte of the write before it that resolved to the same backing-store location
(20_memory section 6). -/
def Obligations.ReadReturnsLatestWrite : Prop :=
  ∀ (a b : Address) (v : Byte) (s : State), (s.ma.resolve .w a).kind = .ptr → (s.ma.resolve .r b).kind = .ptr →
    pointerOf (s.ma.resolve .w a) a = pointerOf (s.ma.resolve .r b) b →
    ∃ t, runCommands [.mwrite8 a v, .mread8 b] s = .next t ∧
      t.rsps = s.rsps ++ [responseWord .ok 0#8 false 0#32, responseWord .ok 0#8 false (v.setWidth 32)]

/-- No command but `MINIT` frees the backstop slot or takes a grant from it (41_memory_arbiter R93). -/
def Obligations.BackstopIsNeverReleased : Prop :=
  ∀ (i : Instr) (s t : State) (b : Nat), exec i s = .next t → i ≠ .minit → b + 1 = s.ma.nslot →
    s.ma.usedAt b = true →
    t.ma.usedAt b = true ∧ t.ma.devAt b = s.ma.devAt b ∧ ∀ d p, s.ma.ptAt d p b = true → t.ma.ptAt d p b = true

/-- Releasing a range restores the tables as they were before it was allocated to a handle that held nothing there, so a
lower-priority device shows through again (41_memory_arbiter R98, R99). -/
def Obligations.ReleaseRestoresOverlaidPages : Prop :=
  ∀ (h : Handle) (iscb : Bool) (d : Dir) (addr : Address) (len : BitVec 24) (target stride : Pointer) (s : State),
    s.ma.Inv → s.ma.usedAt h.toNat = true → h.toNat + 1 < s.ma.nslot → addr.toNat + len.toNat ≤ 65536 →
    (∀ p ∈ cover addr len, s.ma.ptAt d p h.toNat = false) →
    ∃ t, runCommands [.malloc h iscb d addr len target stride, .mrel h d addr len] s = .next t ∧
      (∀ d' p, t.ma.gtAt d' p = s.ma.gtAt d' p) ∧ (∀ k d' p, t.ma.lvAt k d' p = s.ma.lvAt k d' p) ∧
      (∀ d' p k, t.ma.ptAt d' p k = s.ma.ptAt d' p k) ∧
      (∀ k, t.ma.usedAt k = s.ma.usedAt k ∧ t.ma.devAt k = s.ma.devAt k)

/-- No step changes a parameter: `F_RESET`, `UNDEF_READ` and `NSLOT` are constants (10_state section 3). -/
def Obligations.ParametersNeverChange : Prop :=
  ∀ s t : State, step s = .next t → t.cfg = s.cfg ∧ t.ma.nslot = s.ma.nslot

end
end

