-- ==== Sys2Proof/Laws/Tables.lean ====
section
/-! SUPPORT. The arbiter's tables: what each accessor reads after each write (10_state R21 to R25), and what `FirstLive`
answers (41_memory_arbiter R91). -/

namespace Sys2Proof

@[simp] theorem ByDir.get_set_same {α : Type} (t : ByDir α) (d : Dir) (v : α) : (t.set d v).get d = v := by
  cases d <;> rfl

theorem ByDir.get_set_other {α : Type} (t : ByDir α) (d e : Dir) (v : α) (h : e ≠ d) : (t.set d v).get e = t.get e := by
  cases d <;> cases e <;> first | rfl | exact absurd rfl h

namespace Machine

/-- A statement about both directions is two statements. -/
theorem forall_dir (P : Dir → Prop) : (∀ d, P d) ↔ P .r ∧ P .w := by
  constructor
  · intro h; exact ⟨h _, h _⟩
  · rintro ⟨hr, hw⟩ d; cases d <;> assumption

/-! ## The number of slots -/

@[simp] theorem Arbiter.nslot_setSlot (m : Arbiter) (s : Nat) (u : Bool) (dev : DeviceId) :
    (m.setSlot s u dev).nslot = m.nslot := by simp [Arbiter.nslot, Arbiter.setSlot]

@[simp] theorem Arbiter.nslot_setGt (m : Arbiter) (d : Dir) (p : Page) (e : Entry) : (m.setGt d p e).nslot = m.nslot :=
  rfl

@[simp] theorem Arbiter.nslot_setLv (m : Arbiter) (s : Nat) (d : Dir) (p : Page) (e : Entry) :
    (m.setLv s d p e).nslot = m.nslot := by simp [Arbiter.nslot, Arbiter.setLv]

@[simp] theorem Arbiter.nslot_setPt (m : Arbiter) (d : Dir) (p : Page) (s : Nat) (b : Bool) :
    (m.setPt d p s b).nslot = m.nslot := by simp [Arbiter.nslot, Arbiter.setPt]

@[simp] theorem Arbiter.nslot_reset (n : Nat) : (Arbiter.reset n).nslot = n := by simp [Arbiter.nslot, Arbiter.reset]

/-! ## `SLOT` -/

theorem Arbiter.usedAt_setSlot (m : Arbiter) (s t : Nat) (u : Bool) (dev : DeviceId) :
    (m.setSlot s u dev).usedAt t = if t = s ∧ s < m.nslot then u else m.usedAt t := by
  simp only [Arbiter.usedAt, Arbiter.setSlot, Arbiter.nslot, List.getElem?_modify]
  by_cases h : s = t
  · subst h
    by_cases hs : s < m.slots.length
    · simp [hs]
    · simp [hs]
  · cases hx : m.slots[t]? <;> simp [h, Ne.symm h]

theorem Arbiter.devAt_setSlot (m : Arbiter) (s t : Nat) (u : Bool) (dev : DeviceId) :
    (m.setSlot s u dev).devAt t = if t = s ∧ s < m.nslot then some dev else m.devAt t := by
  simp only [Arbiter.devAt, Arbiter.setSlot, Arbiter.nslot, List.getElem?_modify]
  by_cases h : s = t
  · subst h
    by_cases hs : s < m.slots.length
    · simp [hs]
    · simp [hs]
  · cases hx : m.slots[t]? <;> simp [h, Ne.symm h]

@[simp] theorem Arbiter.usedAt_setGt (m : Arbiter) (d : Dir) (p : Page) (e : Entry) (t : Nat) :
    (m.setGt d p e).usedAt t = m.usedAt t := rfl

@[simp] theorem Arbiter.usedAt_setLv (m : Arbiter) (s : Nat) (d : Dir) (p : Page) (e : Entry) (t : Nat) :
    (m.setLv s d p e).usedAt t = m.usedAt t := by
  simp only [Arbiter.usedAt, Arbiter.setLv, List.getElem?_modify]
  cases m.slots[t]? <;> simp
  split <;> rfl

@[simp] theorem Arbiter.usedAt_setPt (m : Arbiter) (d : Dir) (p : Page) (s : Nat) (b : Bool) (t : Nat) :
    (m.setPt d p s b).usedAt t = m.usedAt t := by
  simp only [Arbiter.usedAt, Arbiter.setPt, List.getElem?_modify]
  cases m.slots[t]? <;> simp
  split <;> rfl

@[simp] theorem Arbiter.devAt_setGt (m : Arbiter) (d : Dir) (p : Page) (e : Entry) (t : Nat) :
    (m.setGt d p e).devAt t = m.devAt t := rfl

@[simp] theorem Arbiter.devAt_setLv (m : Arbiter) (s : Nat) (d : Dir) (p : Page) (e : Entry) (t : Nat) :
    (m.setLv s d p e).devAt t = m.devAt t := by
  simp only [Arbiter.devAt, Arbiter.setLv, List.getElem?_modify]
  cases m.slots[t]? <;> simp
  split <;> rfl

@[simp] theorem Arbiter.devAt_setPt (m : Arbiter) (d : Dir) (p : Page) (s : Nat) (b : Bool) (t : Nat) :
    (m.setPt d p s b).devAt t = m.devAt t := by
  simp only [Arbiter.devAt, Arbiter.setPt, List.getElem?_modify]
  cases m.slots[t]? <;> simp
  split <;> rfl

/-! ## `GT` -/

theorem Arbiter.gtAt_setGt (m : Arbiter) (d d' : Dir) (p p' : Page) (e : Entry) :
    (m.setGt d p e).gtAt d' p' = if d' = d ∧ p' = p then e else m.gtAt d' p' := by
  simp only [Arbiter.gtAt, Arbiter.setGt]
  by_cases hd : d' = d
  · subst hd
    simp only [ByDir.get_set_same, Vector.getElem_set]
    by_cases hp : p' = p
    · simp [hp]
    · have : ¬p.val = p'.val := fun h => hp (Fin.ext h.symm)
      simp [hp, this]
  · simp [hd, ByDir.get_set_other _ _ _ _ hd]

@[simp] theorem Arbiter.gtAt_setSlot (m : Arbiter) (s : Nat) (u : Bool) (dev : DeviceId) (d : Dir) (p : Page) :
    (m.setSlot s u dev).gtAt d p = m.gtAt d p := rfl

@[simp] theorem Arbiter.gtAt_setLv (m : Arbiter) (s : Nat) (d d' : Dir) (p p' : Page) (e : Entry) :
    (m.setLv s d p e).gtAt d' p' = m.gtAt d' p' := rfl

@[simp] theorem Arbiter.gtAt_setPt (m : Arbiter) (d d' : Dir) (p p' : Page) (s : Nat) (b : Bool) :
    (m.setPt d p s b).gtAt d' p' = m.gtAt d' p' := rfl

/-! ## `LV` -/

theorem Arbiter.lvAt_setLv (m : Arbiter) (s t : Nat) (d d' : Dir) (p p' : Page) (e : Entry) :
    (m.setLv s d p e).lvAt t d' p' = if t = s ∧ s < m.nslot ∧ d' = d ∧ p' = p then e else m.lvAt t d' p' := by
  simp only [Arbiter.lvAt, Arbiter.setLv, Arbiter.nslot, List.getElem?_modify]
  by_cases h : s = t
  · subst h
    by_cases hs : s < m.slots.length
    · simp only [hs, List.getElem?_eq_getElem, Option.map_eq_map, Option.map_some, if_true, true_and]
      by_cases hd : d' = d
      · subst hd
        rw [ByDir.get_set_same, Vector.getElem_set]
        by_cases hp : p' = p
        · simp [hp]
        · have : ¬p.val = p'.val := fun h => hp (Fin.ext h.symm)
          simp [hp, this]
      · rw [ByDir.get_set_other _ _ _ _ hd]
        simp [hd]
    · simp [hs]
  · cases hx : m.slots[t]? <;> simp [h, Ne.symm h]

@[simp] theorem Arbiter.lvAt_setGt (m : Arbiter) (d : Dir) (p : Page) (e : Entry) (t : Nat) (d' : Dir) (p' : Page) :
    (m.setGt d p e).lvAt t d' p' = m.lvAt t d' p' := rfl

@[simp] theorem Arbiter.lvAt_setSlot (m : Arbiter) (s : Nat) (u : Bool) (dev : DeviceId) (t : Nat) (d : Dir) (p : Page) :
    (m.setSlot s u dev).lvAt t d p = m.lvAt t d p := by
  simp only [Arbiter.lvAt, Arbiter.setSlot, List.getElem?_modify]
  cases m.slots[t]? <;> simp
  split <;> rfl

@[simp] theorem Arbiter.lvAt_setPt (m : Arbiter) (d : Dir) (p : Page) (s : Nat) (b : Bool) (t : Nat) (d' : Dir) (p' : Page) :
    (m.setPt d p s b).lvAt t d' p' = m.lvAt t d' p' := by
  simp only [Arbiter.lvAt, Arbiter.setPt, List.getElem?_modify]
  cases m.slots[t]? <;> simp
  split <;> rfl

/-! ## `PT` -/

theorem Arbiter.ptAt_setPt (m : Arbiter) (d d' : Dir) (p p' : Page) (s t : Nat) (b : Bool) :
    (m.setPt d p s b).ptAt d' p' t = if t = s ∧ s < m.nslot ∧ d' = d ∧ p' = p then b else m.ptAt d' p' t := by
  simp only [Arbiter.ptAt, Arbiter.setPt, Arbiter.nslot, List.getElem?_modify]
  by_cases h : s = t
  · subst h
    by_cases hs : s < m.slots.length
    · simp only [hs, List.getElem?_eq_getElem, Option.map_eq_map, Option.map_some, if_true, true_and]
      by_cases hd : d' = d
      · subst hd
        rw [ByDir.get_set_same, Vector.getElem_set]
        by_cases hp : p' = p
        · simp [hp]
        · have : ¬p.val = p'.val := fun h => hp (Fin.ext h.symm)
          simp [hp, this]
      · rw [ByDir.get_set_other _ _ _ _ hd]
        simp [hd]
    · simp [hs]
  · cases hx : m.slots[t]? <;> simp [h, Ne.symm h]

@[simp] theorem Arbiter.ptAt_setGt (m : Arbiter) (d : Dir) (p : Page) (e : Entry) (d' : Dir) (p' : Page) (t : Nat) :
    (m.setGt d p e).ptAt d' p' t = m.ptAt d' p' t := rfl

@[simp] theorem Arbiter.ptAt_setSlot (m : Arbiter) (s : Nat) (u : Bool) (dev : DeviceId) (d : Dir) (p : Page) (t : Nat) :
    (m.setSlot s u dev).ptAt d p t = m.ptAt d p t := by
  simp only [Arbiter.ptAt, Arbiter.setSlot, List.getElem?_modify]
  cases m.slots[t]? <;> simp
  split <;> rfl

@[simp] theorem Arbiter.ptAt_setLv (m : Arbiter) (s : Nat) (d d' : Dir) (p p' : Page) (e : Entry) (t : Nat) :
    (m.setLv s d p e).ptAt d' p' t = m.ptAt d' p' t := by
  simp only [Arbiter.ptAt, Arbiter.setLv, List.getElem?_modify]
  cases m.slots[t]? <;> simp
  split <;> rfl

/-! ## Reset tables -/

theorem Arbiter.slots_reset_getElem? (n t : Nat) :
    (Arbiter.reset n).slots[t]? = if t < n then some Slot.reset else none := by
  simp [Arbiter.reset, List.getElem?_replicate]

theorem Arbiter.usedAt_reset (n t : Nat) : (Arbiter.reset n).usedAt t = false := by
  simp only [Arbiter.usedAt, Arbiter.slots_reset_getElem?]
  by_cases h : t < n <;> simp [h, Slot.reset]

theorem Arbiter.ptAt_reset (n t : Nat) (d : Dir) (p : Page) : (Arbiter.reset n).ptAt d p t = false := by
  simp only [Arbiter.ptAt, Arbiter.slots_reset_getElem?]
  by_cases h : t < n <;> cases d <;> simp [h, Slot.reset, ByDir.get]

theorem Arbiter.lvAt_reset (n t : Nat) (d : Dir) (p : Page) : (Arbiter.reset n).lvAt t d p = undefEntry := by
  simp only [Arbiter.lvAt, Arbiter.slots_reset_getElem?]
  by_cases h : t < n <;> cases d <;> simp [h, Slot.reset, ByDir.get]

theorem Arbiter.gtAt_reset (n : Nat) (d : Dir) (p : Page) : (Arbiter.reset n).gtAt d p = undefEntry := by
  cases d <;> simp [Arbiter.gtAt, Arbiter.reset, ByDir.get]

theorem Arbiter.devAt_reset (n t : Nat) : (Arbiter.reset n).devAt t = if t < n then some 0#16 else none := by
  simp only [Arbiter.devAt, Arbiter.slots_reset_getElem?]
  by_cases h : t < n <;> simp [h, Slot.reset]

/-! ## Beyond the last slot -/

theorem Arbiter.ptAt_of_ge (m : Arbiter) (d : Dir) (p : Page) (t : Nat) (h : m.nslot ≤ t) : m.ptAt d p t = false := by
  simp [Arbiter.ptAt, List.getElem?_eq_none h]

theorem Arbiter.lvAt_of_ge (m : Arbiter) (d : Dir) (p : Page) (t : Nat) (h : m.nslot ≤ t) :
    m.lvAt t d p = undefEntry := by
  simp [Arbiter.lvAt, List.getElem?_eq_none h]

theorem Arbiter.usedAt_of_ge (m : Arbiter) (t : Nat) (h : m.nslot ≤ t) : m.usedAt t = false := by
  simp [Arbiter.usedAt, List.getElem?_eq_none h]

theorem Arbiter.devAt_of_lt (m : Arbiter) (t : Nat) (h : t < m.nslot) : ∃ dev, m.devAt t = some dev := by
  exact ⟨_, by simp only [Arbiter.devAt]; rw [List.getElem?_eq_getElem h]; rfl⟩

/-! ## `FirstLive` -/

/-- `FirstLive(d, p) = t`: `t` is live and no lower slot is (41_memory_arbiter R91). -/
theorem Arbiter.firstLive_eq_some_iff (m : Arbiter) (d : Dir) (p : Page) (t : Nat) :
    m.firstLive d p = some t ↔ m.ptAt d p t = true ∧ ∀ j, j < t → m.ptAt d p j = false := by
  simp only [Arbiter.firstLive, List.findIdx?_eq_some_iff_getElem]
  constructor
  · rintro ⟨ht, hp, hlow⟩
    refine ⟨?_, fun j hj => ?_⟩
    · simp only [Arbiter.ptAt, List.getElem?_eq_getElem ht]; exact hp
    · have hjl : j < m.slots.length := Nat.lt_trans hj ht
      have := hlow j hj
      simp only [Arbiter.ptAt, List.getElem?_eq_getElem hjl]
      simpa using this
  · rintro ⟨hp, hlow⟩
    have ht : t < m.slots.length := by
      by_contra h
      rw [Arbiter.ptAt_of_ge m d p t (Nat.le_of_not_lt h)] at hp
      cases hp
    refine ⟨ht, ?_, fun j hj => ?_⟩
    · simpa only [Arbiter.ptAt, List.getElem?_eq_getElem ht] using hp
    · have hjl : j < m.slots.length := Nat.lt_trans hj ht
      have := hlow j hj
      simp only [Arbiter.ptAt, List.getElem?_eq_getElem hjl] at this
      simp [this]

/-- `FirstLive(d, p) = NONE`: no slot is live (41_memory_arbiter R91). -/
theorem Arbiter.firstLive_eq_none_iff (m : Arbiter) (d : Dir) (p : Page) :
    m.firstLive d p = none ↔ ∀ j, m.ptAt d p j = false := by
  simp only [Arbiter.firstLive, List.findIdx?_eq_none_iff]
  constructor
  · intro h j
    by_cases hj : j < m.slots.length
    · simp only [Arbiter.ptAt, List.getElem?_eq_getElem hj]
      exact h _ (List.getElem_mem hj)
    · exact Arbiter.ptAt_of_ge m d p j (Nat.le_of_not_lt hj)
  · intro h row hrow
    obtain ⟨j, hj, rfl⟩ := List.getElem_of_mem hrow
    have := h j
    simpa only [Arbiter.ptAt, List.getElem?_eq_getElem hj] using this

/-- A live slot is a slot. -/
theorem Arbiter.lt_of_ptAt (m : Arbiter) (d : Dir) (p : Page) (t : Nat) (h : m.ptAt d p t = true) : t < m.nslot := by
  by_contra hge
  rw [Arbiter.ptAt_of_ge m d p t (Nat.le_of_not_lt hge)] at h
  cases h

/-- `FirstLive` depends on the `PT` bits of its page alone. -/
theorem Arbiter.firstLive_congr (m n : Arbiter) (d : Dir) (p : Page) (h : ∀ t, m.ptAt d p t = n.ptAt d p t) :
    m.firstLive d p = n.firstLive d p := by
  cases hn : n.firstLive d p with
  | none =>
    rw [Arbiter.firstLive_eq_none_iff] at hn ⊢
    intro j; rw [h, hn]
  | some t =>
    rw [Arbiter.firstLive_eq_some_iff] at hn ⊢
    exact ⟨by rw [h, hn.1], fun j hj => by rw [h, hn.2 j hj]⟩

/-- I1 said through the entry that shows through, in a form that can be evaluated on a concrete table (10_state R26). -/
theorem Arbiter.i1_of_visible (m : Arbiter)
    (h : ∀ d p, m.gtAt d p = m.visibleEntry d p ∧
      (m.firstLive d p).all (fun t => (m.gtAt d p).owner.toNat == t) = true) : m.I1 := by
  intro d p
  obtain ⟨hv, ho⟩ := h d p
  unfold Arbiter.visibleEntry at hv
  cases hf : m.firstLive d p with
  | none => simp only [hf] at hv; exact hv
  | some t => simp only [hf] at hv ho; exact ⟨hv, by simpa using ho⟩

end Machine
end Sys2Proof
end

