-- ==== Sys2Proof/Laws/Arbiter.lean ====
section
/-! SUPPORT. What `AllocPage`, `ReleasePage` and the loops over them do to every element of the tables
(41_memory_arbiter R97 to R99): later proofs cite these and unfold none of the operations. -/

namespace Sys2Proof.Machine

/-! ## `AllocPage` -/

@[simp] theorem Arbiter.nslot_allocPage (m : Arbiter) (s : Nat) (d : Dir) (p : Page) (e : Entry) :
    (m.allocPage s d p e).nslot = m.nslot := by
  simp only [Arbiter.allocPage]; split <;> simp

@[simp] theorem Arbiter.usedAt_allocPage (m : Arbiter) (s : Nat) (d : Dir) (p : Page) (e : Entry) (t : Nat) :
    (m.allocPage s d p e).usedAt t = m.usedAt t := by
  simp only [Arbiter.allocPage]; split <;> simp

@[simp] theorem Arbiter.devAt_allocPage (m : Arbiter) (s : Nat) (d : Dir) (p : Page) (e : Entry) (t : Nat) :
    (m.allocPage s d p e).devAt t = m.devAt t := by
  simp only [Arbiter.allocPage]; split <;> simp

theorem Arbiter.lvAt_allocPage (m : Arbiter) (s : Nat) (d : Dir) (p : Page) (e : Entry) (t : Nat) (d' : Dir) (p' : Page) :
    (m.allocPage s d p e).lvAt t d' p' = if t = s ∧ s < m.nslot ∧ d' = d ∧ p' = p then e else m.lvAt t d' p' := by
  simp only [Arbiter.allocPage]; split <;> simp [Arbiter.lvAt_setLv]

theorem Arbiter.ptAt_allocPage (m : Arbiter) (s : Nat) (d : Dir) (p : Page) (e : Entry) (d' : Dir) (p' : Page) (t : Nat) :
    (m.allocPage s d p e).ptAt d' p' t = if t = s ∧ s < m.nslot ∧ d' = d ∧ p' = p then true else m.ptAt d' p' t := by
  simp only [Arbiter.allocPage]; split <;> simp [Arbiter.ptAt_setPt]

/-- `AllocPage` shows the new entry globally exactly where no lower slot is live. -/
theorem Arbiter.gtAt_allocPage (m : Arbiter) (s : Nat) (d : Dir) (p : Page) (e : Entry) (d' : Dir) (p' : Page) :
    (m.allocPage s d p e).gtAt d' p' =
      if d' = d ∧ p' = p ∧ s < m.nslot ∧ (∀ t, t < s → m.ptAt d p t = false) then e else m.gtAt d' p' := by
  have hfl : ((m.setLv s d p e).setPt d p s true).firstLive d p = some s ↔
      s < m.nslot ∧ ∀ t, t < s → m.ptAt d p t = false := by
    rw [Arbiter.firstLive_eq_some_iff]
    constructor
    · rintro ⟨h1, h2⟩
      refine ⟨by simpa using Arbiter.lt_of_ptAt _ _ _ _ h1, fun t ht => ?_⟩
      have := h2 t ht
      rw [Arbiter.ptAt_setPt] at this
      simpa [Nat.ne_of_lt ht] using this
    · rintro ⟨h1, h2⟩
      refine ⟨by simp [Arbiter.ptAt_setPt, h1], fun t ht => ?_⟩
      rw [Arbiter.ptAt_setPt]
      simpa [Nat.ne_of_lt ht] using h2 t ht
  simp only [Arbiter.allocPage, hfl]
  split
  · next h =>
    rw [Arbiter.gtAt_setGt]
    by_cases hc : d' = d ∧ p' = p
    · rw [if_pos hc, if_pos ⟨hc.1, hc.2, h.1, h.2⟩]
    · rw [if_neg hc, if_neg (fun hx => hc ⟨hx.1, hx.2.1⟩)]; simp
  · next h => rw [if_neg (fun hx => h ⟨hx.2.2.1, hx.2.2.2⟩)]; simp

/-! ## The loop of `MALLOC` -/

/-- The tables after allocating each page of a list. -/
def Arbiter.allocPages (m : Arbiter) (s : Nat) (d : Dir) (e : Page → Entry) (l : List Page) : Arbiter :=
  l.foldl (fun m p => m.allocPage s d p (e p)) m

theorem Arbiter.allocRange_eq (m : Arbiter) (h : Handle) (iscb : Bool) (d : Dir) (addr : Address) (len : BitVec 24)
    (target stride : Pointer) :
    m.allocRange h iscb d addr len target stride =
      m.allocPages h.toNat d (grantEntry h iscb addr target stride) (cover addr len) := rfl

theorem Arbiter.allocPages_cons (m : Arbiter) (s : Nat) (d : Dir) (e : Page → Entry) (p : Page) (l : List Page) :
    m.allocPages s d e (p :: l) = (m.allocPage s d p (e p)).allocPages s d e l := rfl

@[simp] theorem Arbiter.nslot_allocPages (m : Arbiter) (s : Nat) (d : Dir) (e : Page → Entry) (l : List Page) :
    (m.allocPages s d e l).nslot = m.nslot := by
  induction l generalizing m with
  | nil => rfl
  | cons p l ih => rw [Arbiter.allocPages_cons, ih]; simp

@[simp] theorem Arbiter.usedAt_allocPages (m : Arbiter) (s : Nat) (d : Dir) (e : Page → Entry) (l : List Page) (t : Nat) :
    (m.allocPages s d e l).usedAt t = m.usedAt t := by
  induction l generalizing m with
  | nil => rfl
  | cons p l ih => rw [Arbiter.allocPages_cons, ih]; simp

@[simp] theorem Arbiter.devAt_allocPages (m : Arbiter) (s : Nat) (d : Dir) (e : Page → Entry) (l : List Page) (t : Nat) :
    (m.allocPages s d e l).devAt t = m.devAt t := by
  induction l generalizing m with
  | nil => rfl
  | cons p l ih => rw [Arbiter.allocPages_cons, ih]; simp

theorem Arbiter.lvAt_allocPages (m : Arbiter) (s : Nat) (d : Dir) (e : Page → Entry) (l : List Page) (t : Nat) (d' : Dir)
    (p' : Page) :
    (m.allocPages s d e l).lvAt t d' p' =
      if t = s ∧ s < m.nslot ∧ d' = d ∧ p' ∈ l then e p' else m.lvAt t d' p' := by
  induction l generalizing m with
  | nil => simp [Arbiter.allocPages]
  | cons p l ih =>
    rw [Arbiter.allocPages_cons, ih, Arbiter.lvAt_allocPage]
    by_cases hp : p' = p
    · subst hp
      clear ih
      simp only [List.mem_cons, true_or, and_true, Arbiter.nslot_allocPage]
      split_ifs <;> first | rfl | (exfalso; tauto)
    · simp [hp]

theorem Arbiter.ptAt_allocPages (m : Arbiter) (s : Nat) (d : Dir) (e : Page → Entry) (l : List Page) (d' : Dir)
    (p' : Page) (t : Nat) :
    (m.allocPages s d e l).ptAt d' p' t =
      if t = s ∧ s < m.nslot ∧ d' = d ∧ p' ∈ l then true else m.ptAt d' p' t := by
  induction l generalizing m with
  | nil => simp [Arbiter.allocPages]
  | cons p l ih =>
    rw [Arbiter.allocPages_cons, ih, Arbiter.ptAt_allocPage]
    by_cases hp : p' = p
    · subst hp
      clear ih
      simp only [List.mem_cons, true_or, and_true, Arbiter.nslot_allocPage]
      split_ifs <;> first | rfl | (exfalso; tauto)
    · simp [hp]

theorem Arbiter.gtAt_allocPages (m : Arbiter) (s : Nat) (d : Dir) (e : Page → Entry) (l : List Page) (d' : Dir)
    (p' : Page) :
    (m.allocPages s d e l).gtAt d' p' =
      if d' = d ∧ p' ∈ l ∧ s < m.nslot ∧ (∀ t, t < s → m.ptAt d p' t = false) then e p' else m.gtAt d' p' := by
  induction l generalizing m with
  | nil => simp [Arbiter.allocPages]
  | cons p l ih =>
    have hpt : (∀ t, t < s → (m.allocPage s d p (e p)).ptAt d p' t = false) ↔ ∀ t, t < s → m.ptAt d p' t = false := by
      refine forall_congr' (fun t => forall_congr' (fun ht => ?_))
      rw [Arbiter.ptAt_allocPage, if_neg (fun h => Nat.ne_of_lt ht h.1)]
    rw [Arbiter.allocPages_cons, ih, Arbiter.gtAt_allocPage, Arbiter.nslot_allocPage]
    simp only [hpt]
    by_cases hp : p' = p
    · subst hp
      clear ih
      simp only [List.mem_cons, true_or, true_and]
      split_ifs <;> first | rfl | (exfalso; tauto)
    · simp [hp]

/-! ## `ReleasePage` -/

@[simp] theorem Arbiter.nslot_releasePage (m : Arbiter) (h : Handle) (d : Dir) (p : Page) :
    (m.releasePage h d p).nslot = m.nslot := by
  simp only [Arbiter.releasePage]; split
  · split <;> simp
  · rfl

@[simp] theorem Arbiter.usedAt_releasePage (m : Arbiter) (h : Handle) (d : Dir) (p : Page) (t : Nat) :
    (m.releasePage h d p).usedAt t = m.usedAt t := by
  simp only [Arbiter.releasePage]; split
  · split <;> simp
  · rfl

@[simp] theorem Arbiter.devAt_releasePage (m : Arbiter) (h : Handle) (d : Dir) (p : Page) (t : Nat) :
    (m.releasePage h d p).devAt t = m.devAt t := by
  simp only [Arbiter.releasePage]; split
  · split <;> simp
  · rfl

theorem Arbiter.ptAt_releasePage (m : Arbiter) (h : Handle) (d : Dir) (p : Page) (d' : Dir) (p' : Page) (t : Nat) :
    (m.releasePage h d p).ptAt d' p' t = if t = h.toNat ∧ d' = d ∧ p' = p then false else m.ptAt d' p' t := by
  simp only [Arbiter.releasePage]
  split
  · next hp =>
    have hs := Arbiter.lt_of_ptAt _ _ _ _ hp
    split <;> simp [Arbiter.ptAt_setPt, hs]
  · next hp =>
    split
    · next hc => obtain ⟨rfl, rfl, rfl⟩ := hc; simpa using hp
    · rfl

theorem Arbiter.lvAt_releasePage (m : Arbiter) (h : Handle) (d : Dir) (p : Page) (t : Nat) (d' : Dir) (p' : Page) :
    (m.releasePage h d p).lvAt t d' p' =
      if t = h.toNat ∧ d' = d ∧ p' = p ∧ m.ptAt d p h.toNat = true then undefEntry else m.lvAt t d' p' := by
  simp only [Arbiter.releasePage]
  split
  · next hp =>
    have hs := Arbiter.lt_of_ptAt _ _ _ _ hp
    split <;> simp [Arbiter.lvAt_setLv, hs, hp]
  · next hp => simp [hp]

/-- The visible entry does not depend on the global table. -/
@[simp] theorem Arbiter.visibleEntry_setGt (m : Arbiter) (d : Dir) (p : Page) (e : Entry) (d' : Dir) (p' : Page) :
    (m.setGt d p e).visibleEntry d' p' = m.visibleEntry d' p' := rfl

/-- The visible entry depends on the `PT` bits and local views of its page alone. -/
theorem Arbiter.visibleEntry_congr (m n : Arbiter) (d : Dir) (p : Page) (hpt : ∀ t, m.ptAt d p t = n.ptAt d p t)
    (hlv : ∀ t, m.lvAt t d p = n.lvAt t d p) : m.visibleEntry d p = n.visibleEntry d p := by
  simp only [Arbiter.visibleEntry, Arbiter.firstLive_congr m n d p hpt, hlv]

/-- `ReleasePage` reloads the global entry exactly where the released handle owned it. -/
theorem Arbiter.gtAt_releasePage (m : Arbiter) (h : Handle) (d : Dir) (p : Page) (d' : Dir) (p' : Page) :
    (m.releasePage h d p).gtAt d' p' =
      if d' = d ∧ p' = p ∧ m.ptAt d p h.toNat = true ∧ (m.gtAt d p).owner = h
      then (m.releasePage h d p).visibleEntry d p else m.gtAt d' p' := by
  simp only [Arbiter.releasePage]
  by_cases hp : m.ptAt d p h.toNat = true
  · simp only [hp, if_true, true_and]
    by_cases ho : (m.gtAt d p).owner = h
    · simp [ho, Arbiter.gtAt_setGt]
    · simp [ho]
  · simp [hp]

/-! ## The loops of `MREL` and `MDISC` -/

/-- The tables after releasing each page of a list. -/
def Arbiter.releasePages (m : Arbiter) (h : Handle) (d : Dir) (l : List Page) : Arbiter :=
  l.foldl (fun m p => m.releasePage h d p) m

theorem Arbiter.releaseRange_eq (m : Arbiter) (h : Handle) (d : Dir) (addr : Address) (len : BitVec 24) :
    m.releaseRange h d addr len = m.releasePages h d (cover addr len) := rfl

theorem Arbiter.releaseAll_eq (m : Arbiter) (h : Handle) :
    m.releaseAll h = (m.releasePages h .r allPages).releasePages h .w allPages := by
  simp only [Arbiter.releaseAll, Arbiter.releasePages, List.foldl_cons, List.foldl_nil]

theorem Arbiter.releasePages_cons (m : Arbiter) (h : Handle) (d : Dir) (p : Page) (l : List Page) :
    m.releasePages h d (p :: l) = (m.releasePage h d p).releasePages h d l := rfl

@[simp] theorem Arbiter.nslot_releasePages (m : Arbiter) (h : Handle) (d : Dir) (l : List Page) :
    (m.releasePages h d l).nslot = m.nslot := by
  induction l generalizing m with
  | nil => rfl
  | cons p l ih => rw [Arbiter.releasePages_cons, ih]; simp

@[simp] theorem Arbiter.usedAt_releasePages (m : Arbiter) (h : Handle) (d : Dir) (l : List Page) (t : Nat) :
    (m.releasePages h d l).usedAt t = m.usedAt t := by
  induction l generalizing m with
  | nil => rfl
  | cons p l ih => rw [Arbiter.releasePages_cons, ih]; simp

@[simp] theorem Arbiter.devAt_releasePages (m : Arbiter) (h : Handle) (d : Dir) (l : List Page) (t : Nat) :
    (m.releasePages h d l).devAt t = m.devAt t := by
  induction l generalizing m with
  | nil => rfl
  | cons p l ih => rw [Arbiter.releasePages_cons, ih]; simp

theorem Arbiter.ptAt_releasePages (m : Arbiter) (h : Handle) (d : Dir) (l : List Page) (d' : Dir) (p' : Page) (t : Nat) :
    (m.releasePages h d l).ptAt d' p' t = if t = h.toNat ∧ d' = d ∧ p' ∈ l then false else m.ptAt d' p' t := by
  induction l generalizing m with
  | nil => simp [Arbiter.releasePages]
  | cons p l ih =>
    rw [Arbiter.releasePages_cons, ih, Arbiter.ptAt_releasePage]
    by_cases hp : p' = p
    · subst hp
      clear ih
      simp only [List.mem_cons, true_or, and_true]
      split_ifs <;> first | rfl | (exfalso; tauto)
    · simp [hp]

theorem Arbiter.lvAt_releasePages (m : Arbiter) (h : Handle) (d : Dir) (l : List Page) (t : Nat) (d' : Dir) (p' : Page) :
    (m.releasePages h d l).lvAt t d' p' =
      if t = h.toNat ∧ d' = d ∧ p' ∈ l ∧ m.ptAt d p' h.toNat = true then undefEntry else m.lvAt t d' p' := by
  induction l generalizing m with
  | nil => simp [Arbiter.releasePages]
  | cons p l ih =>
    rw [Arbiter.releasePages_cons, ih, Arbiter.lvAt_releasePage, Arbiter.ptAt_releasePage]
    by_cases hp : p' = p
    · subst hp
      clear ih
      simp only [List.mem_cons, true_or, and_true]
      split_ifs <;> first | rfl | (exfalso; tauto)
    · simp [hp]

/-- A page outside the list keeps its global entry; a page inside is reloaded where the released handle owned it. -/
theorem Arbiter.gtAt_releasePages (m : Arbiter) (h : Handle) (d : Dir) (l : List Page) (d' : Dir) (p' : Page) :
    (m.releasePages h d l).gtAt d' p' =
      if d' = d ∧ p' ∈ l ∧ m.ptAt d p' h.toNat = true ∧ (m.gtAt d p').owner = h
      then (m.releasePages h d l).visibleEntry d p' else m.gtAt d' p' := by
  induction l generalizing m with
  | nil => simp [Arbiter.releasePages]
  | cons p l ih =>
    rw [Arbiter.releasePages_cons, ih]
    by_cases hp : p' = p
    · subst hp
      have hpt : (m.releasePage h d p').ptAt d p' h.toNat = false := by simp [Arbiter.ptAt_releasePage]
      have hvis : (m.releasePage h d p').visibleEntry d p' =
          ((m.releasePage h d p').releasePages h d l).visibleEntry d p' := by
        refine Arbiter.visibleEntry_congr _ _ _ _ (fun t => ?_) (fun t => ?_)
        · rw [Arbiter.ptAt_releasePages, Arbiter.ptAt_releasePage]
          by_cases ht : t = h.toNat <;> simp [ht]
        · rw [Arbiter.lvAt_releasePages, hpt]; simp
      rw [if_neg (by simp [hpt]), Arbiter.gtAt_releasePage, hvis]
      simp
    · have hpt : (m.releasePage h d p).ptAt d p' h.toNat = m.ptAt d p' h.toNat := by
        simp [Arbiter.ptAt_releasePage, hp]
      have hgt : ∀ d'', (m.releasePage h d p).gtAt d'' p' = m.gtAt d'' p' := by
        intro d''; rw [Arbiter.gtAt_releasePage]; simp [hp]
      rw [hpt, hgt, hgt]
      simp [hp]

theorem mem_allPages (p : Page) : p ∈ allPages := List.mem_finRange p

/-- A page is covered exactly when the range is not empty and the page lies between its first and last page. -/
theorem mem_cover_iff (addr : Address) (len : BitVec 24) (p : Page) :
    p ∈ cover addr len ↔ len ≠ 0#24 ∧ firstPage addr ≤ p.val ∧ p.val ≤ lastPage addr len := by
  unfold cover
  split
  · next h => simp [h]
  · next h => simp [h, mem_allPages]

/-- The page number is the address divided by the page size (20_memory R31). -/
theorem pageOf_val (a : Address) : (pageOf a).val = a.toNat / 1024 := by
  have := a.isLt
  simp only [pageOf, BitVec.extractLsb'_toNat, Nat.shiftRight_eq_div_pow]
  omega

/-- The offset is the address modulo the page size (20_memory R31). -/
theorem offsetOf_toNat (a : Address) : (offsetOf a).toNat = a.toNat % 1024 := by
  simp [offsetOf, BitVec.extractLsb'_toNat]

/-! ## Free slots -/

theorem Arbiter.mem_freeSlots (m : Arbiter) (s : Nat) : s ∈ m.freeSlots ↔ s < m.nslot ∧ m.usedAt s = false := by
  simp [Arbiter.freeSlots]

/-- The free slots are listed in ascending order. -/
theorem Arbiter.freeSlots_pairwise (m : Arbiter) : m.freeSlots.Pairwise (· < ·) :=
  List.Pairwise.filter _ List.pairwise_lt_range

/-- `MCONN` finds no slot exactly when every slot is used (41_memory_arbiter R96). -/
theorem Arbiter.chooseSlot_eq_none_iff (m : Arbiter) (high : Bool) :
    m.chooseSlot high = none ↔ ∀ k, k < m.nslot → m.usedAt k = true := by
  have hnil : m.freeSlots = [] ↔ ∀ k, k < m.nslot → m.usedAt k = true := by
    simp only [List.eq_nil_iff_forall_not_mem, Arbiter.mem_freeSlots, not_and, Bool.not_eq_false]
  unfold Arbiter.chooseSlot
  split
  · rw [List.head?_eq_none_iff, hnil]
  · rw [List.getLast?_eq_none_iff, hnil]

/-- The slot `MCONN` finds is free, and no free slot lies beyond it at its end (41_memory_arbiter R96). -/
theorem Arbiter.chooseSlot_eq_some (m : Arbiter) (high : Bool) (k : Nat) (h : m.chooseSlot high = some k) :
    k < m.nslot ∧ m.usedAt k = false ∧ (high = true → ∀ j, j < k → m.usedAt j = true) ∧
      (high = false → ∀ j, k < j → j < m.nslot → m.usedAt j = true) := by
  have hs := m.freeSlots_pairwise
  have hfree : ∀ j, j < m.nslot → ¬m.usedAt j = true → j ∈ m.freeSlots := fun j hj hu =>
    (Arbiter.mem_freeSlots _ _).2 ⟨hj, by simpa using hu⟩
  unfold Arbiter.chooseSlot at h
  split at h
  · next hh =>
    obtain ⟨hk, hu⟩ := (Arbiter.mem_freeSlots _ _).1 (List.mem_of_head? h)
    refine ⟨hk, hu, fun _ j hj => ?_, fun hl => absurd (hh.symm.trans hl) (by decide)⟩
    by_contra hn
    have hjm := hfree j (by omega) hn
    obtain ⟨l, hl⟩ := List.head?_eq_some_iff.1 h
    rw [hl, List.pairwise_cons] at hs
    rw [hl, List.mem_cons] at hjm
    rcases hjm with rfl | hjm
    · omega
    · have := hs.1 j hjm; omega
  · next hh =>
    obtain ⟨hk, hu⟩ := (Arbiter.mem_freeSlots _ _).1 (List.mem_of_getLast? h)
    refine ⟨hk, hu, fun hl => absurd hl hh, fun _ j hj hjn => ?_⟩
    by_contra hn
    have hjm := hfree j hjn hn
    obtain ⟨l, hl⟩ := List.getLast?_eq_some_iff.1 h
    rw [hl, List.pairwise_append] at hs
    rw [hl, List.mem_append] at hjm
    rcases hjm with hjm | hjm
    · have := hs.2.2 j hjm k (by simp); omega
    · simp at hjm; omega

/-! ## The checks -/

/-- A used slot is a slot. -/
theorem Arbiter.lt_of_usedAt (m : Arbiter) (t : Nat) (h : m.usedAt t = true) : t < m.nslot := by
  by_contra hn
  rw [Arbiter.usedAt_of_ge _ _ (by omega)] at h
  cases h

/-- A handle is valid exactly when its slot is used (41_memory_arbiter R92). -/
theorem Arbiter.validHandle_iff (m : Arbiter) (h : Handle) : m.validHandle h = true ↔ m.usedAt h.toNat = true := by
  simp only [Arbiter.validHandle, Bool.and_eq_true, decide_eq_true_eq, and_iff_right_iff_imp]
  exact m.lt_of_usedAt _

/-- `HANDLE = NSLOT-1` (41_memory_arbiter R93). -/
theorem Arbiter.isBackstop_iff (m : Arbiter) (h : Handle) : m.isBackstop h = true ↔ h.toNat + 1 = m.nslot := by
  simp [Arbiter.isBackstop]

/-- `ArgCheck` (41_memory_arbiter R94). -/
theorem argCheck_iff (addr : Address) (len : BitVec 24) :
    argCheck addr len = true ↔ len.toNat ≤ 65536 ∧ addr.toNat + len.toNat ≤ 65536 := by
  simp [argCheck]

end Sys2Proof.Machine
end

