-- ==== Sys2Proof/Laws/Decode.lean ====
section
/-! SUPPORT. Fields of a concatenation, fields of a word under a mask, and the fields of an encoded command. -/

namespace Sys2Proof

/-- A field that lies in the high part of a concatenation. -/
theorem extract_append_high {v w lo len : Nat} (x : BitVec v) (y : BitVec w) (z : BitVec len) (h : w ≤ lo)
    (hx : x.extractLsb' (lo - w) len = z) : (x ++ y).extractLsb' lo len = z := by
  rw [BitVec.extractLsb'_append_eq_of_le h, hx]

/-- A field that lies in the low part of a concatenation. -/
theorem extract_append_low {v w lo len : Nat} (x : BitVec v) (y : BitVec w) (z : BitVec len) (h : lo + len ≤ w)
    (hy : y.extractLsb' lo len = z) : (x ++ y).extractLsb' lo len = z := by
  rw [BitVec.extractLsb'_append_eq_of_add_le h, hy]

/-- Two words agree on a field exactly where they agree on each of its bits. -/
theorem field_eq_iff (a b : CommandWord) (lo len : Nat) :
    field a lo len = field b lo len ↔ ∀ k, lo ≤ k → k < lo + len → a.getLsbD k = b.getLsbD k := by
  constructor
  · intro h k h1 h2
    have := congrArg (fun v => v.getLsbD (k - lo)) h
    simp only [field, BitVec.getLsbD_extractLsb'] at this
    have e : lo + (k - lo) = k := by omega
    have l : k - lo < len := by omega
    simpa [e, l] using this
  · intro h
    apply BitVec.eq_of_getLsbD_eq
    intro i hi
    simp only [field, BitVec.getLsbD_extractLsb']
    rw [h (lo + i) (by omega) (by omega)]

/-- A word matches a mask and a pattern exactly where its fields under the mask are the pattern's. -/
theorem and_mask_eq_iff (cw mask pattern : CommandWord) (ranges : List (Nat × Nat))
    (hmask : ∀ k : Fin 128,
      mask.getLsbD k.val = ranges.any (fun r => decide (r.1 ≤ k.val) && decide (k.val < r.1 + r.2)))
    (hpattern : pattern &&& mask = pattern) :
    cw &&& mask = pattern ↔ ∀ r ∈ ranges, field cw r.1 r.2 = field pattern r.1 r.2 := by
  constructor
  · intro h r hr
    rw [field_eq_iff]
    intro k h1 h2
    by_cases hk : k < 128
    · have hm : mask.getLsbD k = true := by
        rw [hmask ⟨k, hk⟩, List.any_eq_true]
        exact ⟨r, hr, by simp [h1, h2]⟩
      rw [← h]
      simp [hm]
    · rw [BitVec.getLsbD_of_ge _ _ (by omega), BitVec.getLsbD_of_ge _ _ (by omega)]
  · intro h
    rw [← hpattern]
    apply BitVec.eq_of_getLsbD_eq
    intro k hk
    simp only [BitVec.getLsbD_and]
    cases hm : mask.getLsbD k with
    | false => simp
    | true =>
      rw [hmask ⟨k, hk⟩, List.any_eq_true] at hm
      obtain ⟨r, hr, hb⟩ := hm
      simp only [Bool.and_eq_true, decide_eq_true_eq] at hb
      simp [(field_eq_iff cw pattern r.1 r.2).1 (h r hr) k hb.1 hb.2]

/-! The fields of each encoded command (30_encoding R46 to R52). -/

theorem field_encode_frec (mask : Byte) (wide sub : Bool) (x y : Operand) :
    field (encode (.frec mask wide sub x y)) 120 8 = 0x01#8 ∧ field (encode (.frec mask wide sub x y)) 112 8 = mask ∧
    field (encode (.frec mask wide sub x y)) 106 6 = 0#6 ∧
    field (encode (.frec mask wide sub x y)) 105 1 = BitVec.ofBool wide ∧
    field (encode (.frec mask wide sub x y)) 104 1 = BitVec.ofBool sub ∧
    field (encode (.frec mask wide sub x y)) 50 54 = 0#54 ∧ field (encode (.frec mask wide sub x y)) 32 18 = x ∧
    field (encode (.frec mask wide sub x y)) 18 14 = 0#14 ∧ field (encode (.frec mask wide sub x y)) 0 18 = y := by
  refine ⟨?_, ?_, ?_, ?_, ?_, ?_, ?_, ?_, ?_⟩ <;> unfold field encode <;>
  repeat (first
    | exact BitVec.extractLsb'_eq_self
    | refine extract_append_high _ _ _ (by decide) ?_
    | refine extract_append_low _ _ _ (by decide) ?_)

theorem field_encode_fget (mask : Byte) :
    field (encode (.fget mask)) 120 8 = 0x02#8 ∧ field (encode (.fget mask)) 112 8 = mask ∧
    field (encode (.fget mask)) 0 112 = 0#112 := by
  refine ⟨?_, ?_, ?_⟩ <;> unfold field encode <;>
  repeat (first
    | exact BitVec.extractLsb'_eq_self
    | refine extract_append_high _ _ _ (by decide) ?_
    | refine extract_append_low _ _ _ (by decide) ?_)

theorem field_encode_fset (mask value : Byte) :
    field (encode (.fset mask value)) 120 8 = 0x03#8 ∧ field (encode (.fset mask value)) 112 8 = mask ∧
    field (encode (.fset mask value)) 104 8 = value ∧ field (encode (.fset mask value)) 0 104 = 0#104 := by
  refine ⟨?_, ?_, ?_, ?_⟩ <;> unfold field encode <;>
  repeat (first
    | exact BitVec.extractLsb'_eq_self
    | refine extract_append_high _ _ _ (by decide) ?_
    | refine extract_append_low _ _ _ (by decide) ?_)

theorem field_encode_mconn (high : Bool) (dev : DeviceId) :
    field (encode (.mconn high dev)) 120 8 = 0x11#8 ∧ field (encode (.mconn high dev)) 105 15 = 0#15 ∧
    field (encode (.mconn high dev)) 104 1 = BitVec.ofBool high ∧ field (encode (.mconn high dev)) 88 16 = dev ∧
    field (encode (.mconn high dev)) 0 88 = 0#88 := by
  refine ⟨?_, ?_, ?_, ?_, ?_⟩ <;> unfold field encode <;>
  repeat (first
    | exact BitVec.extractLsb'_eq_self
    | refine extract_append_high _ _ _ (by decide) ?_
    | refine extract_append_low _ _ _ (by decide) ?_)

theorem field_encode_mdisc (handle : Handle) :
    field (encode (.mdisc handle)) 120 8 = 0x12#8 ∧ field (encode (.mdisc handle)) 112 8 = handle ∧
    field (encode (.mdisc handle)) 0 112 = 0#112 := by
  refine ⟨?_, ?_, ?_⟩ <;> unfold field encode <;>
  repeat (first
    | exact BitVec.extractLsb'_eq_self
    | refine extract_append_high _ _ _ (by decide) ?_
    | refine extract_append_low _ _ _ (by decide) ?_)

theorem field_encode_malloc (h : Handle) (iscb : Bool) (d : Dir) (addr : Address) (len : BitVec 24)
    (target stride : Pointer) :
    field (encode (.malloc h iscb d addr len target stride)) 120 8 = 0x13#8 ∧
    field (encode (.malloc h iscb d addr len target stride)) 112 8 = h ∧
    field (encode (.malloc h iscb d addr len target stride)) 106 6 = 0#6 ∧
    field (encode (.malloc h iscb d addr len target stride)) 105 1 = BitVec.ofBool iscb ∧
    field (encode (.malloc h iscb d addr len target stride)) 104 1 = dirBit d ∧
    field (encode (.malloc h iscb d addr len target stride)) 88 16 = addr ∧
    field (encode (.malloc h iscb d addr len target stride)) 64 24 = len ∧
    field (encode (.malloc h iscb d addr len target stride)) 32 32 = target ∧
    field (encode (.malloc h iscb d addr len target stride)) 0 32 = stride := by
  refine ⟨?_, ?_, ?_, ?_, ?_, ?_, ?_, ?_, ?_⟩ <;> unfold field encode <;>
  repeat (first
    | exact BitVec.extractLsb'_eq_self
    | refine extract_append_high _ _ _ (by decide) ?_
    | refine extract_append_low _ _ _ (by decide) ?_)

theorem field_encode_mrel (h : Handle) (d : Dir) (addr : Address) (len : BitVec 24) :
    field (encode (.mrel h d addr len)) 120 8 = 0x14#8 ∧ field (encode (.mrel h d addr len)) 112 8 = h ∧
    field (encode (.mrel h d addr len)) 105 7 = 0#7 ∧ field (encode (.mrel h d addr len)) 104 1 = dirBit d ∧
    field (encode (.mrel h d addr len)) 88 16 = addr ∧ field (encode (.mrel h d addr len)) 64 24 = len ∧
    field (encode (.mrel h d addr len)) 0 64 = 0#64 := by
  refine ⟨?_, ?_, ?_, ?_, ?_, ?_, ?_⟩ <;> unfold field encode <;>
  repeat (first
    | exact BitVec.extractLsb'_eq_self
    | refine extract_append_high _ _ _ (by decide) ?_
    | refine extract_append_low _ _ _ (by decide) ?_)

theorem field_encode_mread8 (addr : Address) :
    field (encode (.mread8 addr)) 120 8 = 0x15#8 ∧ field (encode (.mread8 addr)) 104 16 = 0#16 ∧
    field (encode (.mread8 addr)) 88 16 = addr ∧ field (encode (.mread8 addr)) 0 88 = 0#88 := by
  refine ⟨?_, ?_, ?_, ?_⟩ <;> unfold field encode <;>
  repeat (first
    | exact BitVec.extractLsb'_eq_self
    | refine extract_append_high _ _ _ (by decide) ?_
    | refine extract_append_low _ _ _ (by decide) ?_)

theorem field_encode_mwrite8 (addr : Address) (data : Byte) :
    field (encode (.mwrite8 addr data)) 120 8 = 0x16#8 ∧ field (encode (.mwrite8 addr data)) 104 16 = 0#16 ∧
    field (encode (.mwrite8 addr data)) 88 16 = addr ∧ field (encode (.mwrite8 addr data)) 72 16 = 0#16 ∧
    field (encode (.mwrite8 addr data)) 64 8 = data ∧ field (encode (.mwrite8 addr data)) 0 64 = 0#64 := by
  refine ⟨?_, ?_, ?_, ?_, ?_, ?_⟩ <;> unfold field encode <;>
  repeat (first
    | exact BitVec.extractLsb'_eq_self
    | refine extract_append_high _ _ _ (by decide) ?_
    | refine extract_append_low _ _ _ (by decide) ?_)

theorem field_encode_mpage (d : Dir) (addr : Address) :
    field (encode (.mpage d addr)) 120 8 = 0x17#8 ∧ field (encode (.mpage d addr)) 105 15 = 0#15 ∧
    field (encode (.mpage d addr)) 104 1 = dirBit d ∧ field (encode (.mpage d addr)) 88 16 = addr ∧
    field (encode (.mpage d addr)) 0 88 = 0#88 := by
  refine ⟨?_, ?_, ?_, ?_, ?_⟩ <;> unfold field encode <;>
  repeat (first
    | exact BitVec.extractLsb'_eq_self
    | refine extract_append_high _ _ _ (by decide) ?_
    | refine extract_append_low _ _ _ (by decide) ?_)

end Sys2Proof
end

