-- ==== Sys2Proof/Laws/Flags.lean ====
section
/-! SUPPORT. What the Flag Evaluator's operations do to each flag (40_flag_evaluator R68 to R72). -/

namespace Sys2Proof.Machine

/-- A bit of a byte after one bit is put. -/
theorem getLsbD_putBit (v : Byte) (k j : Fin 8) (b : Bool) :
    (putBit v k b).getLsbD j.val = if j = k then b else v.getLsbD j.val := by
  have hone : (1#8 <<< k.val).getLsbD j.val = decide (j = k) := by revert j k; decide
  have hj := j.isLt
  unfold putBit
  split
  · next hb => subst hb; rw [BitVec.getLsbD_or, hone]; by_cases h : j = k <;> simp [h]
  · next hb =>
    have hb' : b = false := by simpa using hb
    subst hb'
    rw [BitVec.getLsbD_and, BitVec.getLsbD_not, hone]
    by_cases h : j = k <;> simp [h]

/-- Two bytes are equal when their eight bits are. -/
theorem byte_ext (a b : Byte) (h : ∀ j : Fin 8, a.getLsbD j.val = b.getLsbD j.val) : a = b :=
  BitVec.eq_of_getLsbD_eq (fun i hi => h ⟨i, hi⟩)

/-- Recomputing after a resolve gives the same bit: the retained operands have not changed (40 R68). -/
@[simp] theorem FlagEvaluator.recompute_resolveBit (fe : FlagEvaluator) (k j : Fin 8) :
    (fe.resolveBit k).recompute j = fe.recompute j := rfl

/-- One loop over some flag positions, as `FGET`, `FREC` and `FSET` run it: positions of `l` that satisfy the condition get
the value's bit and become clean, every other position and element stays. -/
theorem FlagEvaluator.foldl_resolve (mask : Byte) (l : List (Fin 8)) (fe : FlagEvaluator) :
    let t := l.foldl (fun g k => if mask.getLsbD k.val && g.dm.getLsbD k.val then g.resolveBit k else g) fe
    t.fx = fe.fx ∧ t.fy = fe.fy ∧ t.sub = fe.sub ∧ t.wide = fe.wide ∧
    (∀ j : Fin 8, t.f.getLsbD j.val =
      if j ∈ l ∧ mask.getLsbD j.val = true ∧ fe.dm.getLsbD j.val = true then fe.recompute j else fe.f.getLsbD j.val) ∧
    (∀ j : Fin 8, t.dm.getLsbD j.val =
      if j ∈ l ∧ mask.getLsbD j.val = true then false else fe.dm.getLsbD j.val) := by
  induction l generalizing fe with
  | nil => simp
  | cons k l ih =>
    simp only [List.foldl_cons]
    by_cases hc : (mask.getLsbD k.val && fe.dm.getLsbD k.val) = true
    · rw [if_pos hc]
      obtain ⟨h1, h2, h3, h4, h5, h6⟩ := ih (fe.resolveBit k)
      have hm : mask.getLsbD k.val = true := by simp at hc; exact hc.1
      have hd : fe.dm.getLsbD k.val = true := by simp at hc; exact hc.2
      refine ⟨h1, h2, h3, h4, fun j => ?_, fun j => ?_⟩
      · rw [h5]
        simp only [FlagEvaluator.resolveBit, getLsbD_putBit, FlagEvaluator.recompute, List.mem_cons]
        by_cases hj : j = k
        · subst hj; simp [hm, hd]
        · simp [hj]
      · rw [h6]
        simp only [FlagEvaluator.resolveBit, getLsbD_putBit, List.mem_cons]
        by_cases hj : j = k
        · subst hj; simp [hm]
        · simp [hj]
    · rw [if_neg hc]
      obtain ⟨h1, h2, h3, h4, h5, h6⟩ := ih fe
      simp only [Bool.and_eq_true, not_and, Bool.not_eq_true] at hc
      refine ⟨h1, h2, h3, h4, fun j => ?_, fun j => ?_⟩
      · rw [h5]
        by_cases hj : j = k
        · subst hj
          by_cases hm : mask.getLsbD j.val = true
          · simp only [hm, hc hm, Bool.false_eq_true, and_false, if_false]
          · simp only [hm, Bool.false_eq_true, false_and, and_false, if_false]
        · simp [hj]
      · rw [h6]
        by_cases hj : j = k
        · subst hj
          by_cases hm : mask.getLsbD j.val = true
          · simp only [hm, hc hm, ite_self]
          · simp only [hm, Bool.false_eq_true, and_false, if_false]
        · simp [hj]

@[simp] theorem FlagEvaluator.resolve_fx (fe : FlagEvaluator) (mask : Byte) : (fe.resolve mask).fx = fe.fx :=
  (FlagEvaluator.foldl_resolve mask _ fe).1

@[simp] theorem FlagEvaluator.resolve_fy (fe : FlagEvaluator) (mask : Byte) : (fe.resolve mask).fy = fe.fy :=
  (FlagEvaluator.foldl_resolve mask _ fe).2.1

@[simp] theorem FlagEvaluator.resolve_sub (fe : FlagEvaluator) (mask : Byte) : (fe.resolve mask).sub = fe.sub :=
  (FlagEvaluator.foldl_resolve mask _ fe).2.2.1

@[simp] theorem FlagEvaluator.resolve_wide (fe : FlagEvaluator) (mask : Byte) : (fe.resolve mask).wide = fe.wide :=
  (FlagEvaluator.foldl_resolve mask _ fe).2.2.2.1

/-- A resolve writes the recomputed value to exactly the dirty flags of its mask. -/
theorem FlagEvaluator.resolve_f (fe : FlagEvaluator) (mask : Byte) (j : Fin 8) :
    (fe.resolve mask).f.getLsbD j.val =
      if mask.getLsbD j.val = true ∧ fe.dm.getLsbD j.val = true then fe.recompute j else fe.f.getLsbD j.val := by
  have := (FlagEvaluator.foldl_resolve mask (List.finRange 8) fe).2.2.2.2.1 j
  simpa [FlagEvaluator.resolve] using this

/-- A resolve cleans exactly the flags of its mask. -/
theorem FlagEvaluator.resolve_dm (fe : FlagEvaluator) (mask : Byte) : (fe.resolve mask).dm = fe.dm &&& ~~~mask := by
  refine byte_ext _ _ (fun j => ?_)
  have := (FlagEvaluator.foldl_resolve mask (List.finRange 8) fe).2.2.2.2.2 j
  have hj := j.isLt
  simp only [FlagEvaluator.resolve, this, List.mem_finRange, true_and, BitVec.getLsbD_and, BitVec.getLsbD_not]
  cases mask.getLsbD j.val <;> simp

/-- A loop of eager writes. -/
theorem FlagEvaluator.foldl_write (mask value : Byte) (l : List (Fin 8)) (fe : FlagEvaluator) :
    let t := l.foldl (fun g k =>
      if mask.getLsbD k.val then { g with f := putBit g.f k (value.getLsbD k.val), dm := putBit g.dm k false } else g) fe
    t.fx = fe.fx ∧ t.fy = fe.fy ∧ t.sub = fe.sub ∧ t.wide = fe.wide ∧
    (∀ j : Fin 8, t.f.getLsbD j.val =
      if j ∈ l ∧ mask.getLsbD j.val = true then value.getLsbD j.val else fe.f.getLsbD j.val) ∧
    (∀ j : Fin 8, t.dm.getLsbD j.val =
      if j ∈ l ∧ mask.getLsbD j.val = true then false else fe.dm.getLsbD j.val) := by
  induction l generalizing fe with
  | nil => simp
  | cons k l ih =>
    simp only [List.foldl_cons]
    by_cases hm : mask.getLsbD k.val = true
    · rw [if_pos hm]
      obtain ⟨h1, h2, h3, h4, h5, h6⟩ :=
        ih { fe with f := putBit fe.f k (value.getLsbD k.val), dm := putBit fe.dm k false }
      refine ⟨h1, h2, h3, h4, fun j => ?_, fun j => ?_⟩
      · rw [h5, getLsbD_putBit]
        by_cases hj : j = k
        · subst hj; simp [hm]
        · simp [hj]
      · rw [h6, getLsbD_putBit]
        by_cases hj : j = k
        · subst hj; simp [hm]
        · simp [hj]
    · rw [if_neg hm]
      obtain ⟨h1, h2, h3, h4, h5, h6⟩ := ih fe
      refine ⟨h1, h2, h3, h4, fun j => ?_, fun j => ?_⟩
      · rw [h5]
        by_cases hj : j = k
        · subst hj; simp only [hm, Bool.false_eq_true, and_false, if_false]
        · simp [hj]
      · rw [h6]
        by_cases hj : j = k
        · subst hj; simp only [hm, Bool.false_eq_true, and_false, if_false]
        · simp [hj]

@[simp] theorem FlagEvaluator.writeFlags_fx (fe : FlagEvaluator) (mask v : Byte) : (fe.writeFlags mask v).fx = fe.fx :=
  (FlagEvaluator.foldl_write mask v _ fe).1

@[simp] theorem FlagEvaluator.writeFlags_fy (fe : FlagEvaluator) (mask v : Byte) : (fe.writeFlags mask v).fy = fe.fy :=
  (FlagEvaluator.foldl_write mask v _ fe).2.1

@[simp] theorem FlagEvaluator.writeFlags_sub (fe : FlagEvaluator) (mask v : Byte) :
    (fe.writeFlags mask v).sub = fe.sub := (FlagEvaluator.foldl_write mask v _ fe).2.2.1

@[simp] theorem FlagEvaluator.writeFlags_wide (fe : FlagEvaluator) (mask v : Byte) :
    (fe.writeFlags mask v).wide = fe.wide := (FlagEvaluator.foldl_write mask v _ fe).2.2.2.1

/-- A bit of two merged bytes. -/
theorem getLsbD_mergeBits (old mask new : Byte) (j : Fin 8) :
    (mergeBits old mask new).getLsbD j.val = if mask.getLsbD j.val then new.getLsbD j.val else old.getLsbD j.val := by
  have hj := j.isLt
  simp only [mergeBits, BitVec.getLsbD_or, BitVec.getLsbD_and, BitVec.getLsbD_not]
  cases mask.getLsbD j.val <;> simp

/-- An eager write takes the value's bits under the mask. -/
theorem FlagEvaluator.writeFlags_f (fe : FlagEvaluator) (mask v : Byte) :
    (fe.writeFlags mask v).f = mergeBits fe.f mask v := by
  refine byte_ext _ _ (fun j => ?_)
  have := (FlagEvaluator.foldl_write mask v (List.finRange 8) fe).2.2.2.2.1 j
  rw [getLsbD_mergeBits, FlagEvaluator.writeFlags, this]
  simp only [List.mem_finRange, true_and]

/-- An eager write cleans exactly the flags of its mask. -/
theorem FlagEvaluator.writeFlags_dm (fe : FlagEvaluator) (mask v : Byte) :
    (fe.writeFlags mask v).dm = fe.dm &&& ~~~mask := by
  refine byte_ext _ _ (fun j => ?_)
  have := (FlagEvaluator.foldl_write mask v (List.finRange 8) fe).2.2.2.2.2 j
  have hj := j.isLt
  simp only [FlagEvaluator.writeFlags, this, List.mem_finRange, true_and, BitVec.getLsbD_and, BitVec.getLsbD_not]
  cases mask.getLsbD j.val <;> simp

/-- The bits of a flag byte, from bit 0 to bit 7: `C N PV X H Y Z S` (10_state R11). -/
theorem getLsbD_flagByte (s z y h x pv n c : Bool) (j : Fin 8) :
    (flagByte s z y h x pv n c).getLsbD j.val = [c, n, pv, x, h, y, z, s][j.val]'j.isLt := by
  revert s z y h x pv n c j; decide

/-- The bits of the byte of recomputed flags. -/
theorem getLsbD_recomputeByte (fx fy : Operand) (sub wide : Bool) (j : Fin 8) :
    (recomputeByte fx fy sub wide).getLsbD j.val = recomputeOn fx fy sub wide j := by
  simp only [recomputeByte, getLsbD_flagByte]
  fin_cases j <;> rfl

/-- The bits of the byte of architectural flags. -/
theorem FlagEvaluator.getLsbD_flagValByte (fe : FlagEvaluator) (j : Fin 8) :
    fe.flagValByte.getLsbD j.val = fe.flagVal j := by
  simp only [FlagEvaluator.flagValByte, getLsbD_flagByte]
  fin_cases j <;> rfl

/-- A resolve keeps every architectural flag value (40 R68). -/
theorem FlagEvaluator.flagVal_resolve (fe : FlagEvaluator) (mask : Byte) (j : Fin 8) :
    (fe.resolve mask).flagVal j = fe.flagVal j := by
  simp only [FlagEvaluator.flagVal, FlagEvaluator.resolve_f, FlagEvaluator.resolve_dm, BitVec.getLsbD_and,
    BitVec.getLsbD_not, FlagEvaluator.recompute, FlagEvaluator.resolve_fx, FlagEvaluator.resolve_fy,
    FlagEvaluator.resolve_sub, FlagEvaluator.resolve_wide]
  cases mask.getLsbD j.val <;> cases fe.dm.getLsbD j.val <;> simp

/-- A record gives the flags of its mask the values of the new operands and keeps the others (40 R70). -/
theorem FlagEvaluator.flagVal_record (fe : FlagEvaluator) (mask : Byte) (wide sub : Bool) (x y : Operand) (j : Fin 8) :
    (fe.record mask wide sub x y).flagVal j =
      if mask.getLsbD j.val then recomputeOn x y sub wide j else fe.flagVal j := by
  by_cases hm : mask.getLsbD j.val = true
  · simp only [hm, if_true, FlagEvaluator.flagVal, FlagEvaluator.record, FlagEvaluator.recompute]
  · simp only [hm, FlagEvaluator.flagVal, FlagEvaluator.record, FlagEvaluator.resolve_f, BitVec.getLsbD_not]
    simp

/-- An eager write gives the flags of its mask the value's bits and keeps the others (40 R72). -/
theorem FlagEvaluator.flagVal_writeFlags (fe : FlagEvaluator) (mask v : Byte) (j : Fin 8) :
    (fe.writeFlags mask v).flagVal j = if mask.getLsbD j.val then v.getLsbD j.val else fe.flagVal j := by
  simp only [FlagEvaluator.flagVal, FlagEvaluator.writeFlags_f, FlagEvaluator.writeFlags_dm, BitVec.getLsbD_and,
    BitVec.getLsbD_not, FlagEvaluator.recompute, FlagEvaluator.writeFlags_fx, FlagEvaluator.writeFlags_fy,
    FlagEvaluator.writeFlags_sub, FlagEvaluator.writeFlags_wide, getLsbD_mergeBits]
  cases mask.getLsbD j.val <;> cases fe.dm.getLsbD j.val <;> simp

end Sys2Proof.Machine
end

