-- ==== Sys2Proof/Laws/Memory.lean ====
section
/-! SUPPORT. The backing store's cells: a read after a write, and that a write keeps the canonical form (20_memory R32). -/

namespace Sys2Proof.Machine

/-- A read of the written address gives the written byte. -/
@[simp] theorem Memory.read_write_same (m : Memory) (a : Nat) (v : Byte) : (m.write a v).read a = some v := by
  induction m with
  | nil => simp [Memory.write, Memory.read]
  | cons c rest ih =>
    obtain ⟨b, w⟩ := c
    simp only [Memory.write]
    split
    · simp [Memory.read]
    · split
      · simp [Memory.read]
      · next h => simp [Memory.read, ih, Ne.symm h]

/-- A write leaves every other address alone. -/
theorem Memory.read_write_other (m : Memory) (a b : Nat) (v : Byte) (h : b ≠ a) : (m.write a v).read b = m.read b := by
  induction m with
  | nil => simp [Memory.write, Memory.read, Ne.symm h]
  | cons c rest ih =>
    obtain ⟨k, w⟩ := c
    simp only [Memory.write]
    split
    · simp [Memory.read, Ne.symm h]
    · split
      · next hk => subst hk; simp [Memory.read, Ne.symm h]
      · simp [Memory.read, ih]

/-- A lower bound of a canonical list may be lowered. -/
theorem Memory.wfFrom_mono (m : Memory) (lo lo' : Nat) (hle : lo' ≤ lo) (h : m.wfFrom lo = true) :
    m.wfFrom lo' = true := by
  cases m with
  | nil => rfl
  | cons c rest =>
    simp only [Memory.wfFrom, Bool.and_eq_true, decide_eq_true_eq] at h ⊢
    exact ⟨⟨by omega, h.1.2⟩, h.2⟩

/-- A write at or above the bound keeps the form above the bound. -/
theorem Memory.wfFrom_write (m : Memory) (lo a : Nat) (v : Byte) (hlo : lo ≤ a) (ha : a < 2 ^ 32)
    (h : m.wfFrom lo = true) : (m.write a v).wfFrom lo = true := by
  induction m generalizing lo with
  | nil =>
    simp only [Memory.write, Memory.wfFrom, Bool.and_eq_true, decide_eq_true_eq]
    exact ⟨⟨hlo, ha⟩, trivial⟩
  | cons c rest ih =>
    obtain ⟨b, w⟩ := c
    simp only [Memory.wfFrom, Bool.and_eq_true, decide_eq_true_eq] at h
    simp only [Memory.write]
    split
    · next hab =>
      simp only [Memory.wfFrom, Bool.and_eq_true, decide_eq_true_eq]
      exact ⟨⟨hlo, ha⟩, ⟨⟨by omega, h.1.2⟩, h.2⟩⟩
    · split
      · next _ hab =>
        subst hab
        simp only [Memory.wfFrom, Bool.and_eq_true, decide_eq_true_eq]
        exact ⟨⟨hlo, ha⟩, h.2⟩
      · simp only [Memory.wfFrom, Bool.and_eq_true, decide_eq_true_eq]
        exact ⟨h.1, ih (b + 1) (by omega) h.2⟩

/-- A write keeps the canonical form. -/
theorem Memory.wf_write (m : Memory) (a : Nat) (v : Byte) (ha : a < 2 ^ 32) (h : m.wf = true) :
    (m.write a v).wf = true :=
  Memory.wfFrom_write m 0 a v (Nat.zero_le a) ha h

/-- The backing store of the state after reset is in canonical form. -/
theorem Memory.wf_reset : State.reset.bs.wf = true := rfl

/-- Below its bound a canonical list holds nothing. -/
theorem Memory.read_below (m : Memory) (lo a : Nat) (h : m.wfFrom lo = true) (ha : a < lo) : m.read a = none := by
  induction m generalizing lo with
  | nil => rfl
  | cons c rest ih =>
    obtain ⟨b, w⟩ := c
    simp only [Memory.wfFrom, Bool.and_eq_true, decide_eq_true_eq] at h
    have hne : b ≠ a := by omega
    simp only [Memory.read, hne, if_false]
    exact ih (b + 1) h.2 (by omega)

/-- Two canonical lists that read alike everywhere are equal, so equal memories are equal data. -/
theorem Memory.ext_of_wfFrom (m n : Memory) (lo lo' : Nat) (hm : m.wfFrom lo = true) (hn : n.wfFrom lo' = true)
    (h : ∀ a, m.read a = n.read a) : m = n := by
  induction m generalizing n lo lo' with
  | nil =>
    cases n with
    | nil => rfl
    | cons c rest => simpa [Memory.read] using h c.1
  | cons c rest ih =>
    obtain ⟨b, w⟩ := c
    cases n with
    | nil => simpa [Memory.read] using h b
    | cons e rest' =>
      obtain ⟨b', w'⟩ := e
      simp only [Memory.wfFrom, Bool.and_eq_true, decide_eq_true_eq] at hm hn
      have hb : b = b' := by
        rcases Nat.lt_trichotomy b b' with hlt | heq | hgt
        · have hne : ¬b' = b := by omega
          simpa [Memory.read, hne, Memory.read_below rest' (b' + 1) b hn.2 (by omega)] using h b
        · exact heq
        · have hne : ¬b = b' := by omega
          simpa [Memory.read, hne, Memory.read_below rest (b + 1) b' hm.2 (by omega)] using h b'
      subst hb
      have hw : w = w' := by simpa [Memory.read] using h b
      subst hw
      have hr : rest = rest' := by
        refine ih rest' (b + 1) (b + 1) hm.2 hn.2 (fun a => ?_)
        by_cases hab : b = a
        · subst hab
          rw [Memory.read_below rest (b + 1) b hm.2 (by omega), Memory.read_below rest' (b + 1) b hn.2 (by omega)]
        · simpa [Memory.read, hab] using h a
      rw [hr]

end Sys2Proof.Machine
end

