-- ==== Sys2Proof/Laws/PerInstr.lean ====
section
/-! SUPPORT. One lemma per command: its word matches its own row of the opcode table (30_encoding R54). -/

namespace Sys2Proof.Laws.RowMatch

/-- The word of a command matches a row of the opcode table that bears the command's mnemonic. -/
def Statement (i : Instr) : Prop :=
  ∃ row ∈ opcodeTable, row.mnemonic = mnemonic i ∧ row.matches (encode i) = true

theorem frst : Statement .frst := by unfold Statement; decide

theorem frec (mask : Byte) (wide sub : Bool) (x y : Operand) : Statement (.frec mask wide sub x y) := by
  refine ⟨_, .tail _ (.head _), rfl, ?_⟩
  obtain ⟨h1, -, h3, -, -, h6, -, h8, -⟩ := field_encode_frec mask wide sub x y
  simp only [TableRow.matches, beq_iff_eq]
  rw [and_mask_eq_iff _ _ _ [(120, 8), (106, 6), (50, 54), (18, 14)] (by decide) (by decide)]
  simp only [List.forall_mem_cons, List.not_mem_nil, false_implies, implies_true, and_true]
  exact ⟨h1.trans (by decide), h3.trans (by decide), h6.trans (by decide), h8.trans (by decide)⟩

theorem fget (mask : Byte) : Statement (.fget mask) := by
  refine ⟨_, .tail _ (.tail _ (.head _)), rfl, ?_⟩
  obtain ⟨h1, -, h3⟩ := field_encode_fget mask
  simp only [TableRow.matches, beq_iff_eq]
  rw [and_mask_eq_iff _ _ _ [(120, 8), (0, 112)] (by decide) (by decide)]
  simp only [List.forall_mem_cons, List.not_mem_nil, false_implies, implies_true, and_true]
  exact ⟨h1.trans (by decide), h3.trans (by decide)⟩

theorem fset (mask value : Byte) : Statement (.fset mask value) := by
  refine ⟨_, .tail _ (.tail _ (.tail _ (.head _))), rfl, ?_⟩
  obtain ⟨h1, -, -, h4⟩ := field_encode_fset mask value
  simp only [TableRow.matches, beq_iff_eq]
  rw [and_mask_eq_iff _ _ _ [(120, 8), (0, 104)] (by decide) (by decide)]
  simp only [List.forall_mem_cons, List.not_mem_nil, false_implies, implies_true, and_true]
  exact ⟨h1.trans (by decide), h4.trans (by decide)⟩

theorem minit : Statement .minit := by unfold Statement; decide

theorem mconn (high : Bool) (dev : DeviceId) : Statement (.mconn high dev) := by
  refine ⟨_, .tail _ (.tail _ (.tail _ (.tail _ (.tail _ (.head _))))), rfl, ?_⟩
  obtain ⟨h1, h2, -, -, h5⟩ := field_encode_mconn high dev
  simp only [TableRow.matches, beq_iff_eq]
  rw [and_mask_eq_iff _ _ _ [(120, 8), (105, 15), (0, 88)] (by decide) (by decide)]
  simp only [List.forall_mem_cons, List.not_mem_nil, false_implies, implies_true, and_true]
  exact ⟨h1.trans (by decide), h2.trans (by decide), h5.trans (by decide)⟩

theorem mdisc (handle : Handle) : Statement (.mdisc handle) := by
  refine ⟨_, .tail _ (.tail _ (.tail _ (.tail _ (.tail _ (.tail _ (.head _)))))), rfl, ?_⟩
  obtain ⟨h1, -, h3⟩ := field_encode_mdisc handle
  simp only [TableRow.matches, beq_iff_eq]
  rw [and_mask_eq_iff _ _ _ [(120, 8), (0, 112)] (by decide) (by decide)]
  simp only [List.forall_mem_cons, List.not_mem_nil, false_implies, implies_true, and_true]
  exact ⟨h1.trans (by decide), h3.trans (by decide)⟩

theorem malloc (handle : Handle) (iscb : Bool) (dir : Dir) (addr : Address) (len : BitVec 24)
    (target stride : Pointer) : Statement (.malloc handle iscb dir addr len target stride) := by
  refine ⟨_, .tail _ (.tail _ (.tail _ (.tail _ (.tail _ (.tail _ (.tail _ (.head _))))))), rfl, ?_⟩
  obtain ⟨h1, -, h3, -⟩ := field_encode_malloc handle iscb dir addr len target stride
  simp only [TableRow.matches, beq_iff_eq]
  rw [and_mask_eq_iff _ _ _ [(120, 8), (106, 6)] (by decide) (by decide)]
  simp only [List.forall_mem_cons, List.not_mem_nil, false_implies, implies_true, and_true]
  exact ⟨h1.trans (by decide), h3.trans (by decide)⟩

theorem mrel (handle : Handle) (dir : Dir) (addr : Address) (len : BitVec 24) :
    Statement (.mrel handle dir addr len) := by
  refine ⟨_, .tail _ (.tail _ (.tail _ (.tail _ (.tail _ (.tail _ (.tail _ (.tail _ (.head _)))))))), rfl, ?_⟩
  obtain ⟨h1, -, h3, -, -, -, h7⟩ := field_encode_mrel handle dir addr len
  simp only [TableRow.matches, beq_iff_eq]
  rw [and_mask_eq_iff _ _ _ [(120, 8), (105, 7), (0, 64)] (by decide) (by decide)]
  simp only [List.forall_mem_cons, List.not_mem_nil, false_implies, implies_true, and_true]
  exact ⟨h1.trans (by decide), h3.trans (by decide), h7.trans (by decide)⟩

theorem mread8 (addr : Address) : Statement (.mread8 addr) := by
  refine ⟨_, .tail _ (.tail _ (.tail _ (.tail _ (.tail _ (.tail _ (.tail _ (.tail _ (.tail _ (.head _))))))))), rfl, ?_⟩
  obtain ⟨h1, h2, -, h4⟩ := field_encode_mread8 addr
  simp only [TableRow.matches, beq_iff_eq]
  rw [and_mask_eq_iff _ _ _ [(120, 8), (104, 16), (0, 88)] (by decide) (by decide)]
  simp only [List.forall_mem_cons, List.not_mem_nil, false_implies, implies_true, and_true]
  exact ⟨h1.trans (by decide), h2.trans (by decide), h4.trans (by decide)⟩

theorem mwrite8 (addr : Address) (data : Byte) : Statement (.mwrite8 addr data) := by
  refine ⟨_, .tail _ (.tail _ (.tail _ (.tail _ (.tail _ (.tail _ (.tail _ (.tail _ (.tail _ (.tail _ (.head _)))))))))),
    rfl, ?_⟩
  obtain ⟨h1, h2, -, h4, -, h6⟩ := field_encode_mwrite8 addr data
  simp only [TableRow.matches, beq_iff_eq]
  rw [and_mask_eq_iff _ _ _ [(120, 8), (104, 16), (72, 16), (0, 64)] (by decide) (by decide)]
  simp only [List.forall_mem_cons, List.not_mem_nil, false_implies, implies_true, and_true]
  exact ⟨h1.trans (by decide), h2.trans (by decide), h4.trans (by decide), h6.trans (by decide)⟩

theorem mpage (dir : Dir) (addr : Address) : Statement (.mpage dir addr) := by
  refine ⟨_, .tail _ (.tail _ (.tail _ (.tail _ (.tail _ (.tail _ (.tail _ (.tail _ (.tail _ (.tail _ (.tail _
    (.head _))))))))))), rfl, ?_⟩
  obtain ⟨h1, h2, -, -, h5⟩ := field_encode_mpage dir addr
  simp only [TableRow.matches, beq_iff_eq]
  rw [and_mask_eq_iff _ _ _ [(120, 8), (105, 15), (0, 88)] (by decide) (by decide)]
  simp only [List.forall_mem_cons, List.not_mem_nil, false_implies, implies_true, and_true]
  exact ⟨h1.trans (by decide), h2.trans (by decide), h5.trans (by decide)⟩

end Sys2Proof.Laws.RowMatch
end

