-- ==== Sys2Proof/Laws/State.lean ====
section
/-! SUPPORT. What each update of the state does to each field: one lemma per field per update, so that no later proof unfolds
a record update. -/

namespace Sys2Proof.Machine

/-! ## `State.withPort` -/

@[simp] theorem State.withPort_cfg (s : State) (q : List Input) : (s.withPort q).cfg = s.cfg := rfl
@[simp] theorem State.withPort_fe (s : State) (q : List Input) : (s.withPort q).fe = s.fe := rfl
@[simp] theorem State.withPort_ma (s : State) (q : List Input) : (s.withPort q).ma = s.ma := rfl
@[simp] theorem State.withPort_bs (s : State) (q : List Input) : (s.withPort q).bs = s.bs := rfl
@[simp] theorem State.withPort_port (s : State) (q : List Input) : (s.withPort q).port = q := rfl
@[simp] theorem State.withPort_devIn (s : State) (q : List Input) : (s.withPort q).devIn = s.devIn := rfl
@[simp] theorem State.withPort_draws (s : State) (q : List Input) : (s.withPort q).draws = s.draws := rfl
@[simp] theorem State.withPort_rsps (s : State) (q : List Input) : (s.withPort q).rsps = s.rsps := rfl
@[simp] theorem State.withPort_trace (s : State) (q : List Input) : (s.withPort q).trace = s.trace := rfl
@[simp] theorem State.withPort_mark (s : State) (q : List Input) : (s.withPort q).mark = s.mark := rfl

/-! ## `State.emit` -/

@[simp] theorem State.emit_cfg (s : State) (e : Event) : (s.emit e).cfg = s.cfg := rfl
@[simp] theorem State.emit_fe (s : State) (e : Event) : (s.emit e).fe = s.fe := rfl
@[simp] theorem State.emit_ma (s : State) (e : Event) : (s.emit e).ma = s.ma := rfl
@[simp] theorem State.emit_bs (s : State) (e : Event) : (s.emit e).bs = s.bs := rfl
@[simp] theorem State.emit_port (s : State) (e : Event) : (s.emit e).port = s.port := rfl
@[simp] theorem State.emit_devIn (s : State) (e : Event) : (s.emit e).devIn = s.devIn := rfl
@[simp] theorem State.emit_draws (s : State) (e : Event) : (s.emit e).draws = s.draws := rfl
@[simp] theorem State.emit_rsps (s : State) (e : Event) : (s.emit e).rsps = s.rsps := rfl
@[simp] theorem State.emit_trace (s : State) (e : Event) : (s.emit e).trace = s.trace ++ [e] := rfl
@[simp] theorem State.emit_mark (s : State) (e : Event) : (s.emit e).mark = s.mark := rfl

/-! ## `State.bsWrite` -/

@[simp] theorem State.bsWrite_cfg (s : State) (p : Pointer) (v : Byte) : (s.bsWrite p v).cfg = s.cfg := rfl
@[simp] theorem State.bsWrite_fe (s : State) (p : Pointer) (v : Byte) : (s.bsWrite p v).fe = s.fe := rfl
@[simp] theorem State.bsWrite_ma (s : State) (p : Pointer) (v : Byte) : (s.bsWrite p v).ma = s.ma := rfl
@[simp] theorem State.bsWrite_bs (s : State) (p : Pointer) (v : Byte) : (s.bsWrite p v).bs = s.bs.write p.toNat v := rfl
@[simp] theorem State.bsWrite_port (s : State) (p : Pointer) (v : Byte) : (s.bsWrite p v).port = s.port := rfl
@[simp] theorem State.bsWrite_devIn (s : State) (p : Pointer) (v : Byte) : (s.bsWrite p v).devIn = s.devIn := rfl
@[simp] theorem State.bsWrite_draws (s : State) (p : Pointer) (v : Byte) : (s.bsWrite p v).draws = s.draws := rfl
@[simp] theorem State.bsWrite_rsps (s : State) (p : Pointer) (v : Byte) : (s.bsWrite p v).rsps = s.rsps := rfl
@[simp] theorem State.bsWrite_trace (s : State) (p : Pointer) (v : Byte) : (s.bsWrite p v).trace = s.trace := rfl
@[simp] theorem State.bsWrite_mark (s : State) (p : Pointer) (v : Byte) : (s.bsWrite p v).mark = s.mark := rfl

/-! ## `State.respond` -/

@[simp] theorem State.respond_cfg (s : State) (st : Status) (aux : Handle) (iscb : Bool) (val : Pointer) : (s.respond st aux iscb val).cfg = s.cfg := rfl
@[simp] theorem State.respond_fe (s : State) (st : Status) (aux : Handle) (iscb : Bool) (val : Pointer) : (s.respond st aux iscb val).fe = s.fe := rfl
@[simp] theorem State.respond_ma (s : State) (st : Status) (aux : Handle) (iscb : Bool) (val : Pointer) : (s.respond st aux iscb val).ma = s.ma := rfl
@[simp] theorem State.respond_bs (s : State) (st : Status) (aux : Handle) (iscb : Bool) (val : Pointer) : (s.respond st aux iscb val).bs = s.bs := rfl
@[simp] theorem State.respond_port (s : State) (st : Status) (aux : Handle) (iscb : Bool) (val : Pointer) : (s.respond st aux iscb val).port = s.port := rfl
@[simp] theorem State.respond_devIn (s : State) (st : Status) (aux : Handle) (iscb : Bool) (val : Pointer) : (s.respond st aux iscb val).devIn = s.devIn := rfl
@[simp] theorem State.respond_draws (s : State) (st : Status) (aux : Handle) (iscb : Bool) (val : Pointer) : (s.respond st aux iscb val).draws = s.draws := rfl
@[simp] theorem State.respond_rsps (s : State) (st : Status) (aux : Handle) (iscb : Bool) (val : Pointer) : (s.respond st aux iscb val).rsps = s.rsps ++ [responseWord st aux iscb val] := rfl
@[simp] theorem State.respond_trace (s : State) (st : Status) (aux : Handle) (iscb : Bool) (val : Pointer) : (s.respond st aux iscb val).trace = s.trace := rfl
@[simp] theorem State.respond_mark (s : State) (st : Status) (aux : Handle) (iscb : Bool) (val : Pointer) : (s.respond st aux iscb val).mark = s.mark := rfl

/-! ## `State.respondStatus` -/

@[simp] theorem State.respondStatus_cfg (s : State) (st : Status) : (s.respondStatus st).cfg = s.cfg := rfl
@[simp] theorem State.respondStatus_fe (s : State) (st : Status) : (s.respondStatus st).fe = s.fe := rfl
@[simp] theorem State.respondStatus_ma (s : State) (st : Status) : (s.respondStatus st).ma = s.ma := rfl
@[simp] theorem State.respondStatus_bs (s : State) (st : Status) : (s.respondStatus st).bs = s.bs := rfl
@[simp] theorem State.respondStatus_port (s : State) (st : Status) : (s.respondStatus st).port = s.port := rfl
@[simp] theorem State.respondStatus_devIn (s : State) (st : Status) : (s.respondStatus st).devIn = s.devIn := rfl
@[simp] theorem State.respondStatus_draws (s : State) (st : Status) : (s.respondStatus st).draws = s.draws := rfl
@[simp] theorem State.respondStatus_rsps (s : State) (st : Status) : (s.respondStatus st).rsps = s.rsps ++ [responseWord st 0#8 false 0#32] := rfl
@[simp] theorem State.respondStatus_trace (s : State) (st : Status) : (s.respondStatus st).trace = s.trace := rfl
@[simp] theorem State.respondStatus_mark (s : State) (st : Status) : (s.respondStatus st).mark = s.mark := rfl

/-! ## `State.resetFlags` -/

@[simp] theorem State.resetFlags_cfg (s : State) : (s.resetFlags).cfg = s.cfg := rfl
@[simp] theorem State.resetFlags_fe (s : State) : (s.resetFlags).fe = FlagEvaluator.reset s.cfg.fReset := rfl
@[simp] theorem State.resetFlags_ma (s : State) : (s.resetFlags).ma = s.ma := rfl
@[simp] theorem State.resetFlags_bs (s : State) : (s.resetFlags).bs = s.bs := rfl
@[simp] theorem State.resetFlags_port (s : State) : (s.resetFlags).port = s.port := rfl
@[simp] theorem State.resetFlags_devIn (s : State) : (s.resetFlags).devIn = s.devIn := rfl
@[simp] theorem State.resetFlags_draws (s : State) : (s.resetFlags).draws = s.draws := rfl
@[simp] theorem State.resetFlags_rsps (s : State) : (s.resetFlags).rsps = s.rsps := rfl
@[simp] theorem State.resetFlags_trace (s : State) : (s.resetFlags).trace = s.trace := rfl
@[simp] theorem State.resetFlags_mark (s : State) : (s.resetFlags).mark = s.mark := rfl

/-! ## `State.resetArbiter` -/

@[simp] theorem State.resetArbiter_cfg (s : State) : (s.resetArbiter).cfg = s.cfg := rfl
@[simp] theorem State.resetArbiter_fe (s : State) : (s.resetArbiter).fe = s.fe := rfl
@[simp] theorem State.resetArbiter_bs (s : State) : (s.resetArbiter).bs = s.bs := rfl
@[simp] theorem State.resetArbiter_port (s : State) : (s.resetArbiter).port = s.port := rfl
@[simp] theorem State.resetArbiter_devIn (s : State) : (s.resetArbiter).devIn = s.devIn := rfl
@[simp] theorem State.resetArbiter_draws (s : State) : (s.resetArbiter).draws = s.draws := rfl
@[simp] theorem State.resetArbiter_rsps (s : State) : (s.resetArbiter).rsps = s.rsps := rfl
@[simp] theorem State.resetArbiter_trace (s : State) : (s.resetArbiter).trace = s.trace := rfl
@[simp] theorem State.resetArbiter_mark (s : State) : (s.resetArbiter).mark = s.mark := rfl

/-! ## `State.hardReset` -/

@[simp] theorem State.hardReset_cfg (s : State) : (s.hardReset).cfg = s.cfg := rfl
@[simp] theorem State.hardReset_fe (s : State) : (s.hardReset).fe = FlagEvaluator.reset s.cfg.fReset := rfl
@[simp] theorem State.hardReset_ma (s : State) : (s.hardReset).ma = s.resetArbiter.ma := rfl
@[simp] theorem State.hardReset_bs (s : State) : (s.hardReset).bs = s.bs := rfl
@[simp] theorem State.hardReset_port (s : State) : (s.hardReset).port = s.port := rfl
@[simp] theorem State.hardReset_devIn (s : State) : (s.hardReset).devIn = s.devIn := rfl
@[simp] theorem State.hardReset_draws (s : State) : (s.hardReset).draws = s.draws := rfl
@[simp] theorem State.hardReset_rsps (s : State) : (s.hardReset).rsps = s.rsps := rfl
@[simp] theorem State.hardReset_trace (s : State) : (s.hardReset).trace = s.trace := rfl
@[simp] theorem State.hardReset_mark (s : State) : (s.hardReset).mark = s.mark := rfl

/-! ## `State.outsideWrite` -/

@[simp] theorem State.outsideWrite_cfg (s : State) (p : Pointer) (v : Byte) : (s.outsideWrite p v).cfg = s.cfg := rfl
@[simp] theorem State.outsideWrite_fe (s : State) (p : Pointer) (v : Byte) : (s.outsideWrite p v).fe = s.fe := rfl
@[simp] theorem State.outsideWrite_ma (s : State) (p : Pointer) (v : Byte) : (s.outsideWrite p v).ma = s.ma := rfl
@[simp] theorem State.outsideWrite_bs (s : State) (p : Pointer) (v : Byte) : (s.outsideWrite p v).bs = s.bs.write p.toNat v := rfl
@[simp] theorem State.outsideWrite_port (s : State) (p : Pointer) (v : Byte) : (s.outsideWrite p v).port = s.port := rfl
@[simp] theorem State.outsideWrite_devIn (s : State) (p : Pointer) (v : Byte) : (s.outsideWrite p v).devIn = s.devIn := rfl
@[simp] theorem State.outsideWrite_draws (s : State) (p : Pointer) (v : Byte) : (s.outsideWrite p v).draws = s.draws := rfl
@[simp] theorem State.outsideWrite_rsps (s : State) (p : Pointer) (v : Byte) : (s.outsideWrite p v).rsps = s.rsps := rfl
@[simp] theorem State.outsideWrite_trace (s : State) (p : Pointer) (v : Byte) : (s.outsideWrite p v).trace = s.trace := rfl
@[simp] theorem State.outsideWrite_mark (s : State) (p : Pointer) (v : Byte) : (s.outsideWrite p v).mark = s.mark := rfl

/-! ## `State.answerIllegal` -/

@[simp] theorem State.answerIllegal_cfg (s : State) (r : Reject) : (s.answerIllegal r).cfg = s.cfg := rfl
@[simp] theorem State.answerIllegal_fe (s : State) (r : Reject) : (s.answerIllegal r).fe = s.fe := rfl
@[simp] theorem State.answerIllegal_ma (s : State) (r : Reject) : (s.answerIllegal r).ma = s.ma := rfl
@[simp] theorem State.answerIllegal_bs (s : State) (r : Reject) : (s.answerIllegal r).bs = s.bs := rfl
@[simp] theorem State.answerIllegal_port (s : State) (r : Reject) : (s.answerIllegal r).port = s.port := rfl
@[simp] theorem State.answerIllegal_devIn (s : State) (r : Reject) : (s.answerIllegal r).devIn = s.devIn := rfl
@[simp] theorem State.answerIllegal_draws (s : State) (r : Reject) : (s.answerIllegal r).draws = s.draws := rfl
@[simp] theorem State.answerIllegal_rsps (s : State) (r : Reject) : (s.answerIllegal r).rsps = s.rsps ++ [responseWord .illegal 0#8 false 0#32] := rfl
@[simp] theorem State.answerIllegal_trace (s : State) (r : Reject) : (s.answerIllegal r).trace = s.trace := rfl
@[simp] theorem State.answerIllegal_mark (s : State) (r : Reject) : (s.answerIllegal r).mark = s.mark.or (some r) := rfl

/-! ## `State.dropDevAnswer` -/

@[simp] theorem State.dropDevAnswer_cfg (s : State) : s.dropDevAnswer.cfg = s.cfg := by
  unfold State.dropDevAnswer; split <;> rfl
@[simp] theorem State.dropDevAnswer_fe (s : State) : s.dropDevAnswer.fe = s.fe := by
  unfold State.dropDevAnswer; split <;> rfl
@[simp] theorem State.dropDevAnswer_ma (s : State) : s.dropDevAnswer.ma = s.ma := by
  unfold State.dropDevAnswer; split <;> rfl
@[simp] theorem State.dropDevAnswer_bs (s : State) : s.dropDevAnswer.bs = s.bs := by
  unfold State.dropDevAnswer; split <;> rfl
@[simp] theorem State.dropDevAnswer_port (s : State) : s.dropDevAnswer.port = s.port := by
  unfold State.dropDevAnswer; split <;> rfl
@[simp] theorem State.dropDevAnswer_rsps (s : State) : s.dropDevAnswer.rsps = s.rsps := by
  unfold State.dropDevAnswer; split <;> rfl
@[simp] theorem State.dropDevAnswer_trace (s : State) : s.dropDevAnswer.trace = s.trace := by
  unfold State.dropDevAnswer; split <;> rfl
@[simp] theorem State.dropDevAnswer_mark (s : State) : s.dropDevAnswer.mark = s.mark := by
  unfold State.dropDevAnswer; split <;> rfl

/-- The arbiter after its reset is the arbiter of power-up with as many slots. -/
theorem State.resetArbiter_ma (s : State) : s.resetArbiter.ma = Arbiter.reset s.ma.nslot := by
  simp [State.resetArbiter, Arbiter.reset, Arbiter.nslot, Slot.reset, List.map_const']

/-- The flag evaluator of the state after reset. -/
@[simp] theorem State.reset_fe : State.reset.fe = FlagEvaluator.reset Config.fReset := rfl

/-- The arbiter of the state after reset. -/
@[simp] theorem State.reset_ma : State.reset.ma = Arbiter.reset Config.nslot := rfl

/-- The port after a command word is presented. -/
@[simp] theorem State.present_port (s : State) (cw : CommandWord) : (s.present cw).port = .command cw :: s.port := rfl

end Sys2Proof.Machine
end

