-- ==== Sys2Proof/Laws/Step.lean ====
section
/-! SUPPORT. What a step and each shared access path can do, said once (20_memory R36, R37, R40). -/

namespace Sys2Proof.Machine

/-- What a read can do: one backing-store read, one `DevRead` or one log event, or the model's one fault. -/
theorem memRead_cases (s : State) (a : Address) :
    (∃ p, (s.ma.resolve .r a).kind = .ptr ∧ p = pointerOf (s.ma.resolve .r a) a ∧
      memRead s a = .ok (s.bsRead p, s.emit (.bsRead p (s.bsRead p)))) ∨
    (∃ dev, (s.ma.resolve .r a).kind = .cb ∧ s.ma.devAt (s.ma.resolve .r a).owner.toNat = some dev ∧
      memRead s a = .ok (s.devAnswer,
        s.dropDevAnswer.emit (.devRead dev (s.ma.resolve .r a).target a s.devAnswer))) ∨
    ((s.ma.resolve .r a).kind = .cb ∧ s.ma.nslot ≤ (s.ma.resolve .r a).owner.toNat ∧
      memRead s a = .error (.ownerNotASlot (s.ma.resolve .r a).owner)) ∨
    ((s.ma.resolve .r a).kind = .undef ∧ memRead s a = .ok (s.cfg.undefRead, s.emit (.log .rd a))) := by
  unfold memRead
  cases hk : (s.ma.resolve .r a).kind with
  | ptr => exact .inl ⟨_, rfl, rfl, by simp only [hk]⟩
  | cb =>
    cases hd : s.ma.devAt (s.ma.resolve .r a).owner.toNat with
    | some dev => exact .inr (.inl ⟨dev, rfl, rfl, by simp only [hk, hd]⟩)
    | none =>
      refine .inr (.inr (.inl ⟨rfl, ?_, by simp only [hk, hd]⟩))
      by_contra h
      obtain ⟨dev, hdev⟩ := Arbiter.devAt_of_lt s.ma _ (Nat.lt_of_not_le h)
      rw [hd] at hdev; cases hdev
  | undef => exact .inr (.inr (.inr ⟨rfl, by simp only [hk]⟩))

/-- What a write can do: one backing-store write, one `DevWrite` or one log event, or the model's one fault. -/
theorem memWrite_cases (s : State) (a : Address) (v : Byte) :
    (∃ p, (s.ma.resolve .w a).kind = .ptr ∧ p = pointerOf (s.ma.resolve .w a) a ∧
      memWrite s a v = .ok ((s.bsWrite p v).emit (.bsWrite p v))) ∨
    (∃ dev, (s.ma.resolve .w a).kind = .cb ∧ s.ma.devAt (s.ma.resolve .w a).owner.toNat = some dev ∧
      memWrite s a v = .ok (s.emit (.devWrite dev (s.ma.resolve .w a).target a v))) ∨
    ((s.ma.resolve .w a).kind = .cb ∧ s.ma.nslot ≤ (s.ma.resolve .w a).owner.toNat ∧
      memWrite s a v = .error (.ownerNotASlot (s.ma.resolve .w a).owner)) ∨
    ((s.ma.resolve .w a).kind = .undef ∧ memWrite s a v = .ok (s.emit (.log .wr a))) := by
  unfold memWrite
  cases hk : (s.ma.resolve .w a).kind with
  | ptr => exact .inl ⟨_, rfl, rfl, by simp only [hk]⟩
  | cb =>
    cases hd : s.ma.devAt (s.ma.resolve .w a).owner.toNat with
    | some dev => exact .inr (.inl ⟨dev, rfl, rfl, by simp only [hk, hd]⟩)
    | none =>
      refine .inr (.inr (.inl ⟨rfl, ?_, by simp only [hk, hd]⟩))
      by_contra h
      obtain ⟨dev, hdev⟩ := Arbiter.devAt_of_lt s.ma _ (Nat.lt_of_not_le h)
      rw [hd] at hdev; cases hdev
  | undef => exact .inr (.inr (.inr ⟨rfl, by simp only [hk]⟩))

/-- What a fetch can find. -/
theorem fetch_cases (s : State) :
    (s.port = [] ∧ fetch s = .idle) ∨
    (∃ cw rest i, s.port = .command cw :: rest ∧ decode cw = .ok i ∧ fetch s = .run i (s.withPort rest)) ∨
    (∃ cw rest r, s.port = .command cw :: rest ∧ decode cw = .error r ∧
      fetch s = .done ((s.withPort rest).answerIllegal r)) ∨
    (∃ rest, s.port = .hardReset :: rest ∧ fetch s = .done (s.withPort rest).hardReset) ∨
    (∃ p v rest, s.port = .outsideWrite p v :: rest ∧ fetch s = .done ((s.withPort rest).outsideWrite p v)) := by
  unfold fetch
  cases hp : s.port with
  | nil => exact .inl ⟨rfl, rfl⟩
  | cons x rest =>
    cases x with
    | command cw =>
      cases hd : decode cw with
      | ok i => exact .inr (.inl ⟨cw, rest, i, rfl, hd, by simp [hd]⟩)
      | error r => exact .inr (.inr (.inl ⟨cw, rest, r, rfl, hd, by simp [hd]⟩))
    | hardReset => exact .inr (.inr (.inr (.inl ⟨rest, rfl, rfl⟩)))
    | outsideWrite p v => exact .inr (.inr (.inr (.inr ⟨p, v, rest, rfl, rfl⟩)))

/-- The five things one step can be. -/
theorem step_cases (s : State) :
    (s.port = [] ∧ step s = .next s) ∨
    (∃ cw rest i, s.port = .command cw :: rest ∧ decode cw = .ok i ∧ step s = exec i (s.withPort rest)) ∨
    (∃ cw rest r, s.port = .command cw :: rest ∧ decode cw = .error r ∧
      step s = .next ((s.withPort rest).answerIllegal r)) ∨
    (∃ rest, s.port = .hardReset :: rest ∧ step s = .next (s.withPort rest).hardReset) ∨
    (∃ p v rest, s.port = .outsideWrite p v :: rest ∧ step s = .next ((s.withPort rest).outsideWrite p v)) := by
  unfold step
  rcases fetch_cases s with ⟨h, hf⟩ | ⟨cw, rest, i, h, hd, hf⟩ | ⟨cw, rest, r, h, hd, hf⟩ | ⟨rest, h, hf⟩ |
    ⟨p, v, rest, h, hf⟩ <;> rw [hf]
  · exact .inl ⟨h, rfl⟩
  · exact .inr (.inl ⟨cw, rest, i, h, hd, rfl⟩)
  · exact .inr (.inr (.inl ⟨cw, rest, r, h, hd, rfl⟩))
  · exact .inr (.inr (.inr (.inl ⟨rest, h, rfl⟩)))
  · exact .inr (.inr (.inr (.inr ⟨p, v, rest, h, rfl⟩)))

end Sys2Proof.Machine
end

