-- ==== Sys2Proof/Tests/Slice0.lean ====
section
/-! SUPPORT. Tests. Expected results come from 95_test_vectors or by hand from the rule named; each runs one command on a
small state. The theorems `witness_…` show that the hypotheses of the obligation they name can be met, clause by clause. -/

namespace Sys2Proof.Tests

open Machine

/-- Power-up with `F_RESET = 0x5A`, `UNDEF_READ = 0xFF` and `n` slots. -/
def bare (n : Nat) : State := State.powerUp { fReset := 0x5A#8, undefRead := 0xFF#8 } n

/-- The state after some commands from `bare n`. -/
def after (n : Nat) (l : List Instr) : State :=
  match runCommands l (bare n) with
  | .next t => t
  | .fault _ => bare n
  | .refused _ => bare n

/-- The last response a command drives on a state. -/
def answer (i : Instr) (s : State) : Option ResponseWord :=
  match exec i s with
  | .next t => t.rsps.getLast?
  | .fault _ => none
  | .refused _ => none

/-- The state a command leaves. -/
def left (i : Instr) (s : State) : State :=
  match exec i s with
  | .next t => t
  | .fault _ => s
  | .refused _ => s

/-- A state with inputs at its port. -/
def given (inputs : List Input) (s : State) : State := { s with port := inputs }

/-- Two slots: RAM in slot 1 (the backstop) on page 32 of both directions, over it device 0x0002 in slot 0 with a callback
on page 32 of the read table. -/
def overlaid : State :=
  after 2
    [ .mconn false 0x0001#16, .mconn true 0x0002#16,
      .malloc 0x01#8 false .r 0x8000#16 0x400#24 0x00300000#32 0x400#32,
      .malloc 0x01#8 false .w 0x8000#16 0x400#24 0x00300000#32 0x400#32,
      .malloc 0x00#8 true .r 0x8000#16 0x1#24 0x55#32 0x0#32 ]

/-- The same without the callback device's grant. -/
def ram : State :=
  after 2
    [ .mconn false 0x0001#16, .mconn true 0x0002#16,
      .malloc 0x01#8 false .r 0x8000#16 0x400#24 0x00300000#32 0x400#32,
      .malloc 0x01#8 false .w 0x8000#16 0x400#24 0x00300000#32 0x400#32 ]

/-- A callback entry that names owner 2, with two slots. -/
def orphan : Entry := { kind := .cb, target := 0#32, owner := 0x02#8 }

/-- A state no run reaches: page 0 of both global tables holds `orphan`. -/
def ownerless : State := { bare 2 with ma := ((bare 2).ma.setGt .r 0 orphan).setGt .w 0 orphan }

/-- Flags recorded by `FREC 0xFF, ADD8, 0x1FE, 0x002` (`0xFF + 0x01`): all dirty, `Z H C` set. -/
def recorded : State := after 2 [.frec 0xFF#8 false false 0x1FE#18 0x002#18]

/-! ## Well-formedness: an ill-formed command line for each check -/

theorem test_wellFormed_frec_mask : (AsmCommand.frec 256 .add8 0 0).WellFormed = false := by decide
theorem test_wellFormed_frec_x : (AsmCommand.frec 255 .sub16 0x40000 0).WellFormed = false := by decide
theorem test_wellFormed_frec_y : (AsmCommand.frec 255 .sub16 0x3FFFF 0x40000).WellFormed = false := by decide
theorem test_wellFormed_fget : (AsmCommand.fget 0x100).WellFormed = false := by decide
theorem test_wellFormed_fset_mask : (AsmCommand.fset 0x100 0).WellFormed = false := by decide
theorem test_wellFormed_fset_value : (AsmCommand.fset 0 0x100).WellFormed = false := by decide
theorem test_wellFormed_mconn : (AsmCommand.mconn 0x10000 true).WellFormed = false := by decide
theorem test_wellFormed_mdisc : (AsmCommand.mdisc 256).WellFormed = false := by decide
theorem test_wellFormed_malloc_handle : (AsmCommand.malloc 256 .r 0 0 false 0 0).WellFormed = false := by decide
theorem test_wellFormed_malloc_addr : (AsmCommand.malloc 0 .r 65536 0 false 0 0).WellFormed = false := by decide
theorem test_wellFormed_malloc_len : (AsmCommand.malloc 0 .r 0 0x1000000 false 0 0).WellFormed = false := by decide
theorem test_wellFormed_malloc_target : (AsmCommand.malloc 0 .r 0 0 true 0x100000000 0).WellFormed = false := by decide
theorem test_wellFormed_malloc_stride : (AsmCommand.malloc 0 .r 0 0 true 0 0x100000000).WellFormed = false := by decide
theorem test_wellFormed_mrel_handle : (AsmCommand.mrel 256 .w 0 0).WellFormed = false := by decide
theorem test_wellFormed_mrel_addr : (AsmCommand.mrel 0 .w 65536 0).WellFormed = false := by decide
theorem test_wellFormed_mrel_len : (AsmCommand.mrel 0 .w 0 0x1000000).WellFormed = false := by decide
theorem test_wellFormed_mread8 : (AsmCommand.mread8 0x10000).WellFormed = false := by decide
theorem test_wellFormed_mwrite8_addr : (AsmCommand.mwrite8 0x10000 0).WellFormed = false := by decide
theorem test_wellFormed_mwrite8_data : (AsmCommand.mwrite8 0 0x100).WellFormed = false := by decide
theorem test_wellFormed_mpage : (AsmCommand.mpage .r 0x10000).WellFormed = false := by decide
theorem test_wellFormed_greatest :
    (AsmCommand.malloc 255 .w 65535 0xFFFFFF true 0xFFFFFFFF 0xFFFFFFFF).WellFormed = true := by decide

/-! ## Decoding: words written out from 30_encoding, one per command (95_test_vectors sections 2 and 3) -/

theorem test_decode_frst : decode 0x00000000000000000000000000000000#128 = .ok .frst := by decide
/-- Bits 111:104 are the tag byte, 3 = sub 16-bit (R47). -/
theorem test_decode_frec :
    decode 0x01000300000000000003FFFF0003FFFF#128 = .ok (.frec 0x00#8 true true 0x3FFFF#18 0x3FFFF#18) := by decide
theorem test_decode_fget : decode 0x02010000000000000000000000000000#128 = .ok (.fget 0x01#8) := by decide
theorem test_decode_fset : decode 0x03400000000000000000000000000000#128 = .ok (.fset 0x40#8 0x00#8) := by decide
theorem test_decode_minit : decode 0x10000000000000000000000000000000#128 = .ok .minit := by decide
theorem test_decode_mconn : decode 0x110001009A0000000000000000000000#128 = .ok (.mconn true 0x009A#16) := by decide
theorem test_decode_mdisc : decode 0x12090000000000000000000000000000#128 = .ok (.mdisc 0x09#8) := by decide
theorem test_decode_malloc :
    decode 0x13000103FF0000020000500000001000#128 =
      .ok (.malloc 0x00#8 false .w 0x03FF#16 0x2#24 0x5000#32 0x1000#32) := by decide
theorem test_decode_mrel :
    decode 0x140700FFFF0000020000000000000000#128 = .ok (.mrel 0x07#8 .r 0xFFFF#16 0x2#24) := by decide
theorem test_decode_mread8 : decode 0x15000061230000000000000000000000#128 = .ok (.mread8 0x6123#16) := by decide
theorem test_decode_mwrite8 :
    decode 0x16000004000000420000000000000000#128 = .ok (.mwrite8 0x0400#16 0x42#8) := by decide
theorem test_decode_mpage : decode 0x17000108000000000000000000000000#128 = .ok (.mpage .w 0x0800#16) := by decide
/-- The illegal words of 95_test_vectors 2.6 with an undefined opcode. -/
theorem test_decode_undefinedOpcode :
    decode 0x04000000000000000000000000000000#128 = .error (.undefinedOpcode 0x04#8) ∧
    decode 0x18000000000000000000000000000000#128 = .error (.undefinedOpcode 0x18#8) ∧
    decode 0xFF000000000000000000000000000000#128 = .error (.undefinedOpcode 0xFF#8) := by decide
/-- The illegal words of 95_test_vectors 2.6 with a reserved bit set. -/
theorem test_decode_reservedBit :
    decode 0x00000000000000000000000000000001#128 = .error (.reservedBitSet 0x00#8) ∧
    decode 0x02FF0100000000000000000000000000#128 = .error (.reservedBitSet 0x02#8) ∧
    decode 0x01FF0400000000000000000000000002#128 = .error (.reservedBitSet 0x01#8) ∧
    decode 0x01FF0000000000000004000000000002#128 = .error (.reservedBitSet 0x01#8) ∧
    decode 0x15000161230000000000000000000000#128 = .error (.reservedBitSet 0x15#8) ∧
    decode 0x15000061230000A50000000000000000#128 = .error (.reservedBitSet 0x15#8) ∧
    decode 0x14000260000020000000000000000000#128 = .error (.reservedBitSet 0x14#8) ∧
    decode 0x14000060000020000000000100000000#128 = .error (.reservedBitSet 0x14#8) ∧
    decode 0x12000000000000000000000000000001#128 = .error (.reservedBitSet 0x12#8) ∧
    decode 0x11010000010000000000000000000000#128 = .error (.reservedBitSet 0x11#8) := by decide
/-- The host's numbering: bit 0 is the least significant bit of the command word. -/
theorem test_decodeTableWord : decodeTableWord 128 0x15000061230000000000000000000000 = some (.mread8 0x6123#16) := by
  decide

/-! ## One command each -/

/-- 95_test_vectors 2.2, last rows: `FRST` drops dirty flags unresolved, so `F` is `F_RESET`, here 0x5A. -/
theorem test_frst_dropsDirtyFlags : (left .frst recorded).fe = (bare 2).fe := by decide
/-- R70's example with a smaller mask: a dirty carry outside the mask is saved, here the 1 of `0xFF + 0x01`. -/
theorem test_frec_savesDirtyCarry :
    (left (.frec 0xFE#8 false false 0x00#18 0x02#18) recorded).fe.f.getLsbD 0 = true ∧
    (left (.frec 0xFE#8 false false 0x00#18 0x02#18) recorded).fe.dm = 0xFE#8 := by decide
/-- 95_test_vectors 2.1, row `SUB8 0x80, 0x7F, 1`: the flag byte is 0x56. -/
theorem test_frec_sub8_flags :
    (left (.frec 0xFF#8 false true 0x100#18 0x0FF#18) (bare 2)).fe.flagValByte = 0x56#8 := by decide
/-- 95_test_vectors 2.2, row 5: `FGET 0x01` answers 1 and leaves `DM = 0xFE`. -/
theorem test_fget_oneFlag :
    answer (.fget 0x01#8) recorded = some 0x0000000000000001#64 ∧ (left (.fget 0x01#8) recorded).fe.dm = 0xFE#8 := by decide
/-- 95_test_vectors 2.1, row `ADD8 0xFF, 0x01, 0`: the flag byte is 0x51. -/
theorem test_fget_all : answer (.fget 0xFF#8) recorded = some 0x0000000000000051#64 := by decide
/-- 95_test_vectors 2.2: `FSET 0x01, 0x00` overrides `C` alone; `Z H` still resolve, the byte is 0x50. -/
theorem test_fset_overridesOneFlag :
    (left (.fset 0x01#8 0xFE#8) recorded).fe.flagValByte = 0x50#8 ∧ (left (.fset 0x01#8 0xFE#8) recorded).fe.dm = 0xFE#8 :=
  by decide
/-- R95: the tables of `overlaid` are gone, the response is 0. -/
theorem test_minit_empties : (left .minit overlaid).ma = (bare 2).ma := by decide +kernel
/-- 95_test_vectors 2.3, rows 5 and 6: the first `LO` connect of eight slots gets 7, the first `HI` connect 0. -/
theorem test_mconn_ends :
    answer (.mconn false 0x0001#16) (bare 8) = some 0x0000000700000000#64 ∧
    answer (.mconn true 0x0002#16) (bare 8) = some 0x0000000000000000#64 := by decide +kernel
/-- 95_test_vectors 2.5, row 10: with every slot used, `NOSLOT` and the invalid handle. -/
theorem test_mconn_full : answer (.mconn false 0x0018#16) overlaid = some 0x200000FF00000000#64 := by decide +kernel
/-- R97: the callback device goes and the RAM of the backstop shows through on page 32. -/
theorem test_mdisc_uncovers :
    (left (.mdisc 0x00#8) overlaid).ma.gtAt .r 32 = { kind := .ptr, target := 0x00300000#32, owner := 0x01#8 } ∧
    (left (.mdisc 0x00#8) overlaid).ma.usedAt 0 = false := by decide +kernel
/-- 95_test_vectors 2.3, rows 16 and 17: the backstop, and a handle beyond the slots. -/
theorem test_mdisc_errors :
    answer (.mdisc 0x01#8) overlaid = some 0x4000000000000000#64 ∧
    answer (.mdisc 0x09#8) overlaid = some 0x3000000000000000#64 := by decide +kernel
/-- 95_test_vectors 2.3, rows 18 to 20: an unaligned range covers pages 0 and 1, the stride is added once. -/
theorem test_malloc_stride :
    (left (.malloc 0x00#8 false .w 0x03FF#16 0x2#24 0x5000#32 0x1000#32) ram).ma.gtAt .w 1 =
      { kind := .ptr, target := 0x6000#32, owner := 0x00#8 } := by decide +kernel
/-- 95_test_vectors 2.3, rows 10 and 11: `BADARG`, and `BADHANDLE` before it. -/
theorem test_malloc_errors :
    answer (.malloc 0x00#8 false .r 0xFFFF#16 0x2#24 0x1000#32 0x400#32) ram = some 0x5000000000000000#64 ∧
    answer (.malloc 0x03#8 false .r 0xFFFF#16 0x2#24 0x1000#32 0x400#32) ram = some 0x3000000000000000#64 := by
  decide +kernel
/-- R99: the grant of slot 0 is gone and the backstop's entry is restored from its local view. -/
theorem test_mrel_restores :
    (left (.mrel 0x00#8 .r 0x8000#16 0x400#24) overlaid).ma.gtAt .r 32 =
      { kind := .ptr, target := 0x00300000#32, owner := 0x01#8 } := by decide +kernel
/-- 95_test_vectors 2.3, rows 12 and 13: `BADARG` before `BACKSTOP`, `BACKSTOP` even with `LEN = 0`. -/
theorem test_mrel_errors :
    answer (.mrel 0x01#8 .r 0xFFFF#16 0x2#24) ram = some 0x5000000000000000#64 ∧
    answer (.mrel 0x01#8 .r 0x0000#16 0x0#24) ram = some 0x4000000000000000#64 := by decide +kernel
/-- Program P4, step 12: a callback page makes one `DevRead` with the full address and answers what the device answers. -/
theorem test_mread8_callback :
    answer (.mread8 0x8001#16) { overlaid with devIn := [0x3C#8] } = some 0x000000000000003C#64 ∧
    (left (.mread8 0x8001#16) { overlaid with devIn := [0x3C#8] }).trace = [.devRead 0x0002#16 0x55#32 0x8001#16 0x3C#8] := by
  decide +kernel
/-- Program P4, step 14: the undefined stub answers 0xFF with one log event. -/
theorem test_mread8_undefined :
    answer (.mread8 0x8400#16) overlaid = some 0x00000000000000FF#64 ∧
    (left (.mread8 0x8400#16) overlaid).trace = [.log .rd 0x8400#16] := by decide +kernel
/-- R37: the byte lands at `target + off`, here the last byte of the page. -/
theorem test_mwrite8_raw : (left (.mwrite8 0x83FF#16 0xA5#8) ram).bs = [(0x003003FF, 0xA5#8)] := by decide +kernel
/-- Program P4, step 15: no write grant, the byte is dropped and logged. -/
theorem test_mwrite8_undefined :
    (left (.mwrite8 0x8400#16 0x99#8) overlaid).trace = [.log .wr 0x8400#16] ∧
    (left (.mwrite8 0x8400#16 0x99#8) overlaid).bs = [] := by decide +kernel
/-- Program P4, steps 6 and 13: a callback page, and the undefined stub. -/
theorem test_mpage_stubs :
    answer (.mpage .r 0x8000#16) overlaid = some 0x0000010000000055#64 ∧
    answer (.mpage .r 0x8400#16) overlaid = some 0x000001FF00000000#64 := by decide +kernel
/-- Program P4, step 8, and its write table: a raw pointer is reported with `ISCB = 0`. -/
theorem test_mpage_raw : answer (.mpage .w 0x83FF#16) overlaid = some 0x0000000100300000#64 := by decide +kernel

/-! ## One step -/

/-- A step from reset runs the command that is placed at the port. -/
theorem test_step_runsPlacedCommand :
    step (State.reset.withFetchWord 128 0x11000000010000000000000000000000) = exec (.mconn false 0x0001#16) State.reset := by
  rfl
/-- 95_test_vectors 2.6: an illegal word is answered `1000000000000000`. -/
theorem test_step_illegal :
    step (given [.command 0x04000000000000000000000000000000#128] (bare 2)) =
      .next { bare 2 with rsps := [0x1000000000000000#64], mark := some (.undefinedOpcode 0x04#8) } := by rfl

/-! ## Witnesses: the hypotheses of the obligations can be met -/

theorem witness_EncodeOfDecode : decode 0x13FFFFFFFFFFFFFFFFFFFFFFFFFFFFFF#128 = .error (.reservedBitSet 0x13#8) ∧
    decode 0x13FF03FFFFFFFFFFFFFFFFFFFFFFFFFF#128 =
      .ok (.malloc 0xFF#8 true .w 0xFFFF#16 0xFFFFFF#24 0xFFFFFFFF#32 0xFFFFFFFF#32) := by decide
theorem witness_DecodeAcceptsExactlyTableRows :
    decode 0x02FF0000000000000000000000000000#128 = .ok (.fget 0xFF#8) ∧
    ∃ row ∈ opcodeTable, row.matches 0x02FF0000000000000000000000000000#128 = true := by decide
theorem witness_AssemblerLineOfEveryCommand :
    (AsmCommand.mconn 65535 true).WellFormed = true ∧
    (AsmCommand.mconn 65535 true).toInstr = (AsmCommand.mconn 65535 true).toInstr := by decide
theorem witness_StepRunsDecodedCommand :
    (given [.command 0x10000000000000000000000000000000#128, .hardReset] (bare 2)).port =
      [.command 0x10000000000000000000000000000000#128, .hardReset] ∧
    decode 0x10000000000000000000000000000000#128 = .ok .minit := by decide
theorem witness_IdleStepChangesNothing : (bare 2).port = [] := rfl
/-- An undefined opcode and a reserved bit; the reset state has no mark yet. -/
theorem witness_IllegalWordIsAnsweredAndChangesNothing :
    (∀ row ∈ opcodeTable, row.matches 0x20000000000000000000000000000000#128 = false) ∧
    (∀ row ∈ opcodeTable, row.matches 0x10000000000000000000000000000001#128 = false) ∧
    (given [.command 0x20000000000000000000000000000000#128] (bare 2)).port =
      [.command 0x20000000000000000000000000000000#128] := by decide
/-- With no mark yet, and with one. -/
theorem witness_FirstRejectedWordMarksTheRun :
    decode 0x20000000000000000000000000000000#128 = .error (.undefinedOpcode 0x20#8) ∧
    (bare 2).mark = none ∧
    ({ bare 2 with mark := some (.reservedBitSet 0x00#8) } : State).mark ≠ none := by decide
theorem witness_HardResetIsFrstThenMinit : (given [.hardReset] overlaid).port = [.hardReset] := rfl
theorem witness_ResetLeavesTheOutsideAlone :
    (given [.hardReset] { overlaid with bs := [(0, 0x11#8)] }).port = [.hardReset] := rfl
theorem witness_OutsideWriteChangesOneByte :
    (given [.outsideWrite 0xFFFFFFFF#32 0x77#8] (bare 2)).port = [.outsideWrite 0xFFFFFFFF#32 0x77#8] := rfl
theorem witness_ResetTable : (7 : Nat) < 8 := by decide
/-- The lowest and the highest flag, both dirty. -/
theorem witness_ResolveBitKeepsFlagValues :
    recorded.fe.dm.getLsbD (0 : Fin 8).val = true ∧ recorded.fe.dm.getLsbD (7 : Fin 8).val = true ∧ (0 : Fin 8) ≠ 7 := by
  decide
theorem witness_LazyFlagsAreEagerFlags :
    ∃ t, runCommands [.frec 0xFF#8 false false 0x1FE#18 0x002#18, .frec 0xFE#8 false false 0x00#18 0x02#18, .fget 0x01#8,
      .mread8 0x0000#16] (bare 2) = .next t := ⟨_, rfl⟩
theorem witness_LazyAnswerIsEagerAnswer :
    ∃ t, runCommands [.frec 0xFF#8 false false 0x1FE#18 0x002#18, .fset 0x40#8 0x00#8]
      (State.powerUp { fReset := 0x00#8, undefRead := 0x00#8 } 128) = .next t := ⟨_, rfl⟩
/-- `FREC` and `FSET` with flag 0 outside their masks, and a command that is neither. -/
theorem witness_FlagValueFrame :
    (∃ t, exec (.frec 0xFE#8 false false 0x00#18 0x02#18) recorded = .next t) ∧ (0xFE#8).getLsbD (0 : Fin 8).val = false ∧
    (∃ t, exec (.fset 0xFE#8 0xFF#8) recorded = .next t) ∧ (∃ t, exec (.fget 0xFF#8) recorded = .next t) :=
  ⟨⟨_, rfl⟩, rfl, ⟨_, rfl⟩, ⟨_, rfl⟩⟩
theorem witness_FlagCommandFrame :
    isFlagCommand (.fget 0xFF#8) = true ∧ ∃ t, exec (.fget 0xFF#8) recorded = .next t := ⟨rfl, _, rfl⟩
theorem witness_TableCommandFrame :
    isFlagCommand (.mpage .r 0x8000#16) = false ∧ isByteAccess (.mpage .r 0x8000#16) = false ∧
    ∃ t, exec (.mpage .r 0x8000#16) overlaid = .next t := ⟨rfl, rfl, _, rfl⟩
/-- A write through a raw pointer leaves another byte; a write through the undefined stub leaves all. -/
theorem witness_ByteAccessFrame :
    (∃ t, exec (.mread8 0x8001#16) overlaid = .next t) ∧ (∃ t, exec (.mwrite8 0x8000#16 0x01#8) ram = .next t) ∧
    (ram.ma.resolve .w 0x8000#16).kind = .ptr ∧ 0x00300001#32 ≠ pointerOf (ram.ma.resolve .w 0x8000#16) 0x8000#16 ∧
    (∃ t, exec (.mwrite8 0x8400#16 0x01#8) ram = .next t) ∧ (ram.ma.resolve .w 0x8400#16).kind ≠ .ptr :=
  ⟨⟨_, rfl⟩, ⟨_, rfl⟩, by decide +kernel, by decide +kernel, ⟨_, rfl⟩, by decide +kernel⟩
theorem witness_UnitsShareNoState :
    (∃ t, exec (.fget 0xFF#8) recorded = .next t) ∧ isFlagCommand (.mread8 0x8001#16) = false ∧
    ∃ t, exec (.mread8 0x8001#16) overlaid = .next t := ⟨⟨_, rfl⟩, rfl, _, rfl⟩
/-- Every slot used, and the least and the greatest slot free. -/
theorem witness_MconnResult :
    (∀ k, k < overlaid.ma.nslot → overlaid.ma.usedAt k = true) ∧
    (0 < (bare 2).ma.nslot ∧ (bare 2).ma.usedAt 0 = false) ∧ (1 < (bare 2).ma.nslot ∧ (bare 2).ma.usedAt 1 = false) := by
  decide +kernel
/-- The first handle beyond the slots, a free slot, the backstop, and the slot just below it. -/
theorem witness_MdiscResult :
    overlaid.ma.nslot ≤ (0x02#8).toNat ∧ (bare 2).ma.usedAt (0x00#8).toNat = false ∧
    (overlaid.ma.usedAt (0x01#8).toNat = true ∧ (0x01#8).toNat + 1 = overlaid.ma.nslot) ∧
    (overlaid.ma.usedAt (0x00#8).toNat = true ∧ (0x00#8).toNat + 1 < overlaid.ma.nslot) := by decide +kernel
/-- The bounds of the range check from both sides; a covered page that no lower slot holds, one that a lower slot holds,
and one that is not covered. -/
theorem witness_MallocResult :
    overlaid.ma.nslot ≤ (0x02#8).toNat ∧
    ((0x01#8).toNat < overlaid.ma.nslot ∧ overlaid.ma.usedAt (0x01#8).toNat = true) ∧
    ((0x10001#24).toNat > 65536 ∧ (0xFFFF#16).toNat + (0x2#24).toNat > 65536) ∧
    ((0x0000#16).toNat + (0x10000#24).toNat ≤ 65536 ∧ (0xFFFF#16).toNat + (0x1#24).toNat ≤ 65536) ∧
    ((32 : Page) ∈ cover 0x8000#16 0x401#24 ∧ ∃ t, t < (0x01#8).toNat ∧ overlaid.ma.ptAt .r 32 t = true) ∧
    ((33 : Page) ∈ cover 0x8000#16 0x401#24 ∧ ∀ t, t < (0x01#8).toNat → overlaid.ma.ptAt .r 33 t = false) ∧
    (34 : Page) ∉ cover 0x8000#16 0x401#24 :=
  ⟨by decide +kernel, by decide +kernel, by decide, by decide, ⟨by decide +kernel, 0, by decide, by decide +kernel⟩,
    ⟨by decide +kernel, fun t ht => by have : t = 0 := Nat.lt_one_iff.mp ht
                                       subst this; decide +kernel⟩, by decide +kernel⟩
/-- Each answer of `MREL`; a covered page where the handle owns the global entry, and one where it holds nothing. -/
theorem witness_MrelResult :
    (bare 2).ma.usedAt (0x00#8).toNat = false ∧
    (overlaid.ma.usedAt (0x00#8).toNat = true ∧ (0x8000#16).toNat + (0x8001#24).toNat > 65536) ∧
    (overlaid.ma.usedAt (0x01#8).toNat = true ∧ (0x8000#16).toNat + (0x8000#24).toNat ≤ 65536 ∧
      (0x01#8).toNat + 1 = overlaid.ma.nslot) ∧
    (0x00#8).toNat + 1 < overlaid.ma.nslot ∧
    ((32 : Page) ∈ cover 0x8000#16 0x8000#24 ∧ overlaid.ma.ptAt .r 32 (0x00#8).toNat = true ∧
      (overlaid.ma.gtAt .r 32).owner = 0x00#8) ∧
    ((63 : Page) ∈ cover 0x8000#16 0x8000#24 ∧ overlaid.ma.ptAt .r 63 (0x00#8).toNat = false) := by decide +kernel
/-- A raw pointer, a callback and the undefined stub. -/
theorem witness_Mread8Result :
    (ram.ma.gtAt .r (pageOf 0x83FF#16)).kind = .ptr ∧
    ((overlaid.ma.gtAt .r (pageOf 0x8000#16)).kind = .cb ∧
      (overlaid.ma.gtAt .r (pageOf 0x8000#16)).owner.toNat < overlaid.ma.nslot) ∧
    (overlaid.ma.gtAt .r (pageOf 0x8400#16)).kind = .undef := by decide +kernel
theorem witness_Mwrite8Result :
    (ram.ma.gtAt .w (pageOf 0x83FF#16)).kind = .ptr ∧
    (let s := left (.malloc 0x00#8 true .w 0x8000#16 0x1#24 0x66#32 0x0#32) overlaid
     (s.ma.gtAt .w (pageOf 0x8000#16)).kind = .cb ∧ (s.ma.gtAt .w (pageOf 0x8000#16)).owner.toNat < s.ma.nslot) ∧
    (overlaid.ma.gtAt .w (pageOf 0x7FFF#16)).kind = .undef := by decide +kernel
theorem witness_MpageResult : (63 : Page).val = (0xFFFF#16).toNat / 1024 ∧ (0 : Page).val = (0x03FF#16).toNat / 1024 := by
  decide
/-- A callback entry of the first owner that is no slot, in both directions. -/
theorem witness_CallbackWithoutSlotFaults :
    ((ownerless.ma.resolve .r 0x0000#16).kind = .cb ∧
      ownerless.ma.nslot ≤ (ownerless.ma.resolve .r 0x0000#16).owner.toNat) ∧
    ((ownerless.ma.resolve .w 0x0000#16).kind = .cb ∧
      ownerless.ma.nslot ≤ (ownerless.ma.resolve .w 0x0000#16).owner.toNat) := by decide +kernel
/-- 95_test_vectors 2.4: the rows at the bounds of `ArgCheck`, and what they cover. -/
theorem witness_CoverIsEveryTouchedPage :
    argCheck 0xFFFF#16 0x1#24 = true ∧ argCheck 0xFFFF#16 0x2#24 = false ∧ argCheck 0x0000#16 0x10001#24 = false ∧
    cover 0xFFFF#16 0x1#24 = [63] ∧ cover 0xFFFF#16 0x0#24 = [] ∧ cover 0x0401#16 0x400#24 = [1, 2] ∧
    cover 0x0000#16 0x10000#24 = allPages := by decide +kernel
theorem witness_PageAllocationPseudoInstructions :
    (0x01#8).toNat < ram.ma.nslot ∧ ram.ma.usedAt (0x01#8).toNat = true ∧
    (0x03FF#16).toNat + (0x2#24).toNat ≤ 65536 ∧ (1 : Page) ∈ cover 0x03FF#16 0x2#24 := by decide +kernel

/-- The least and the greatest number of slots. -/
theorem witness_ResetIsSound : (2 ≤ 2 ∧ 2 ≤ 128) ∧ (2 ≤ 128 ∧ 128 ≤ 128) := by decide

/-- `overlaid` meets the arbiter's invariants. -/
theorem overlaid_inv : overlaid.Inv where
  ma :=
    { bounds := ⟨by decide +kernel, by decide +kernel⟩
      i1 := Arbiter.i1_of_visible _ ((forall_dir _).2 ⟨by decide +kernel, by decide +kernel⟩)
      i2 := (forall_dir _).2 ⟨by decide +kernel, by decide +kernel⟩
      i3 := (forall_dir _).2 ⟨by decide +kernel, by decide +kernel⟩
      i4 := fun s hs => (forall_dir _).2 ⟨by revert s hs; decide +kernel, by revert s hs; decide +kernel⟩ }
  bs := by decide +kernel

/-- `ram` meets the arbiter's invariants. -/
theorem ram_inv : ram.ma.Inv where
  bounds := ⟨by decide +kernel, by decide +kernel⟩
  i1 := Arbiter.i1_of_visible _ ((forall_dir _).2 ⟨by decide +kernel, by decide +kernel⟩)
  i2 := (forall_dir _).2 ⟨by decide +kernel, by decide +kernel⟩
  i3 := (forall_dir _).2 ⟨by decide +kernel, by decide +kernel⟩
  i4 := fun s hs => (forall_dir _).2 ⟨by revert s hs; decide +kernel, by revert s hs; decide +kernel⟩

/-- A sound state with a command at its port takes a step. -/
theorem witness_StepKeepsSoundness :
    (given [.command 0x12000000000000000000000000000000#128] overlaid).Inv ∧
    ∃ t, step (given [.command 0x12000000000000000000000000000000#128] overlaid) = .next t :=
  ⟨⟨overlaid_inv.ma, overlaid_inv.bs⟩, _, rfl⟩
theorem witness_SoundStatesStep : (given [.command 0x15000080000000000000000000000000#128] overlaid).Inv :=
  ⟨overlaid_inv.ma, overlaid_inv.bs⟩
/-- A page with two grants, and a page with none. -/
theorem witness_GlobalTableIsVisibleEntry :
    overlaid.ma.Inv ∧ overlaid.ma.ptAt .r 32 0 = true ∧ (∀ j, j < 0 → overlaid.ma.ptAt .r 32 j = false) ∧
    ∀ t, overlaid.ma.ptAt .w 33 t = false := by
  refine ⟨overlaid_inv.ma, by decide +kernel, fun j hj => absurd hj (Nat.not_lt_zero j), ?_⟩
  exact (Arbiter.firstLive_eq_none_iff _ _ _).1 (by decide +kernel)
theorem witness_EveryCommandDrivesOneResponse : ∃ t, exec (.mconn false 0x0018#16) overlaid = .next t := ⟨_, rfl⟩
/-- `MCONN` with every slot used: the response's status is 2. -/
theorem witness_FailedCommandChangesNothing :
    ∃ t, exec (.mconn false 0x0018#16) overlaid = .next t ∧ t.rsps = overlaid.rsps ++ [0x200000FF00000000#64] ∧
      rspStatus 0x200000FF00000000#64 ≠ 0#4 := ⟨_, rfl, by decide +kernel, by decide⟩
theorem witness_OneTransactionPerAccess :
    (∃ t, exec (.mread8 0x8000#16) ram = .next t) ∧ isByteAccess (.mread8 0x8000#16) = true ∧
    (∃ t, exec .minit ram = .next t) ∧ isByteAccess .minit = false := ⟨⟨_, rfl⟩, rfl, ⟨_, rfl⟩, rfl⟩
/-- The same global table and devices, another priority bit. -/
theorem witness_AccessReadsGlobalTableOnly :
    (∀ d, (overlaid.ma.setPt .r 32 0 false).gtAt d (pageOf 0x8000#16) = overlaid.ma.gtAt d (pageOf 0x8000#16)) ∧
    (∀ k, (overlaid.ma.setPt .r 32 0 false).devAt k = overlaid.ma.devAt k) ∧
    (∃ t, exec (.mread8 0x8000#16) overlaid = .next t) ∧ ∃ t, exec (.mwrite8 0x8000#16 0x01#8) overlaid = .next t :=
  ⟨fun _ => Arbiter.gtAt_setPt _ _ _ _ _ _ _, fun _ => Arbiter.devAt_setPt _ _ _ _ _ _, ⟨_, rfl⟩, _, rfl⟩
theorem witness_ReadReturnsLatestWrite :
    (ram.ma.resolve .w 0x83FF#16).kind = .ptr ∧ (ram.ma.resolve .r 0x83FF#16).kind = .ptr ∧
    pointerOf (ram.ma.resolve .w 0x83FF#16) 0x83FF#16 = pointerOf (ram.ma.resolve .r 0x83FF#16) 0x83FF#16 := by
  decide +kernel
theorem witness_BackstopIsNeverReleased :
    (∃ t, exec (.mdisc 0x00#8) overlaid = .next t) ∧ (Instr.mdisc 0x00#8) ≠ .minit ∧ 1 + 1 = overlaid.ma.nslot ∧
    overlaid.ma.usedAt 1 = true ∧ overlaid.ma.ptAt .r 32 1 = true :=
  ⟨⟨_, rfl⟩, by decide, by decide +kernel, by decide +kernel, by decide +kernel⟩
theorem witness_ReleaseRestoresOverlaidPages :
    ram.ma.Inv ∧ ram.ma.usedAt (0x00#8).toNat = true ∧ (0x00#8).toNat + 1 < ram.ma.nslot ∧
    (0x8000#16).toNat + (0x8000#24).toNat ≤ 65536 ∧
    ∀ p ∈ cover 0x8000#16 0x8000#24, ram.ma.ptAt .r p (0x00#8).toNat = false :=
  ⟨ram_inv, by decide +kernel, by decide +kernel, by decide, by decide +kernel⟩
theorem witness_ParametersNeverChange : ∃ t, step (given [.hardReset] overlaid) = .next t := ⟨_, rfl⟩

end Sys2Proof.Tests
end

section
/-! PROOF. What the byte accesses do through each kind of entry: the facts about the access paths and the two obligations
about `MREAD8` and `MWRITE8` (20_memory R36, R37; 41_memory_arbiter R100, R101). -/

namespace Sys2Proof.Machine

/-- The pointer of an access, with the offset as the address modulo the page size (20_memory R31, R36). -/
theorem pointerOf_eq (e : Entry) (a : Address) : pointerOf e a = e.target + BitVec.ofNat 32 (a.toNat % 1024) := by
  have hoff : (offsetOf a).setWidth 32 = BitVec.ofNat 32 (a.toNat % 1024) := by
    rw [← BitVec.ofNat_toNat, offsetOf_toNat]
  rw [pointerOf, hoff]

/-- A read of the backing store sees the latest write of its own pointer and of no other (20_memory R32). -/
theorem State.bsRead_bsWrite (s : State) (p q : Pointer) (v : Byte) :
    (s.bsWrite p v).bsRead q = if q = p then v else s.bsRead q := by
  by_cases hqp : q = p
  · subst hqp
    simp [State.bsRead]
  · have hne : q.toNat ≠ p.toNat := fun h => hqp (BitVec.eq_of_toNat_eq h)
    simp [State.bsRead, hqp, Memory.read_write_other _ _ _ _ hne]

/-! ## The read path by the kind of the entry (20_memory R36) -/

theorem memRead_of_ptr {s : State} {a : Address} (hk : (s.ma.resolve .r a).kind = .ptr) :
    memRead s a = .ok (s.bsRead (pointerOf (s.ma.resolve .r a) a),
      s.emit (.bsRead (pointerOf (s.ma.resolve .r a) a) (s.bsRead (pointerOf (s.ma.resolve .r a) a)))) := by
  simp only [memRead, hk]

theorem memRead_of_cb {s : State} {a : Address} {dev : DeviceId} (hk : (s.ma.resolve .r a).kind = .cb)
    (hdev : s.ma.devAt (s.ma.resolve .r a).owner.toNat = some dev) :
    memRead s a = .ok (s.devAnswer,
      s.dropDevAnswer.emit (.devRead dev (s.ma.resolve .r a).target a s.devAnswer)) := by
  simp only [memRead, hk, hdev]

theorem memRead_of_undef {s : State} {a : Address} (hk : (s.ma.resolve .r a).kind = .undef) :
    memRead s a = .ok (s.cfg.undefRead, s.emit (.log .rd a)) := by
  simp only [memRead, hk]

/-- A read that gives a byte is answered `OK` with that byte (41_memory_arbiter R100). -/
theorem exec_mread8_of_memRead {s t : State} {a : Address} {v : Byte} (h : memRead s a = .ok (v, t)) :
    exec (.mread8 a) s = .next (t.respond .ok 0#8 false (v.setWidth 32)) := by
  simp only [exec, execMread8, h]

/-! ## The write path by the kind of the entry (20_memory R37) -/

theorem memWrite_of_ptr {s : State} {a : Address} (v : Byte) (hk : (s.ma.resolve .w a).kind = .ptr) :
    memWrite s a v = .ok ((s.bsWrite (pointerOf (s.ma.resolve .w a) a) v).emit
      (.bsWrite (pointerOf (s.ma.resolve .w a) a) v)) := by
  simp only [memWrite, hk]

theorem memWrite_of_cb {s : State} {a : Address} {dev : DeviceId} (v : Byte) (hk : (s.ma.resolve .w a).kind = .cb)
    (hdev : s.ma.devAt (s.ma.resolve .w a).owner.toNat = some dev) :
    memWrite s a v = .ok (s.emit (.devWrite dev (s.ma.resolve .w a).target a v)) := by
  simp only [memWrite, hk, hdev]

theorem memWrite_of_undef {s : State} {a : Address} (v : Byte) (hk : (s.ma.resolve .w a).kind = .undef) :
    memWrite s a v = .ok (s.emit (.log .wr a)) := by
  simp only [memWrite, hk]

/-- A write that the access path carries out is answered `OK` (41_memory_arbiter R101). -/
theorem exec_mwrite8_of_memWrite {s t : State} {a : Address} {v : Byte} (h : memWrite s a v = .ok t) :
    exec (.mwrite8 a v) s = .next (t.respondStatus .ok) := by
  simp only [exec, execMwrite8, h]

/-! ## The obligations -/

/-- Settles O43, by the kind of the entry the page resolves to: the read path's equation for that kind, then the one answer
of `MREAD8`. -/
theorem mread8Result : Obligations.Mread8Result := by
  intro a s e he
  subst he
  refine ⟨fun hk => ?_, fun hk howner => ?_, fun hk => ?_⟩
  · rw [← pointerOf_eq]
    exact exec_mread8_of_memRead (memRead_of_ptr hk)
  · obtain ⟨dev, hdev⟩ := Arbiter.devAt_of_lt s.ma _ howner
    refine ⟨dev, hdev, ?_⟩
    rw [← State.dropDevAnswer_trace s, ← State.dropDevAnswer_rsps s]
    exact exec_mread8_of_memRead (memRead_of_cb hk hdev)
  · exact exec_mread8_of_memRead (memRead_of_undef hk)

/-- Settles O44, by the kind of the entry the page resolves to: the write path's equation for that kind, then the one answer
of `MWRITE8`; the byte's place in the store is the read after a write. -/
theorem mwrite8Result : Obligations.Mwrite8Result := by
  intro a v s e he
  subst he
  refine ⟨fun hk => ?_, fun hk howner => ?_, fun hk => ?_⟩
  · rw [← pointerOf_eq]
    exact ⟨_, exec_mwrite8_of_memWrite (memWrite_of_ptr v hk), fun q => s.bsRead_bsWrite _ q v⟩
  · obtain ⟨dev, hdev⟩ := Arbiter.devAt_of_lt s.ma _ howner
    exact ⟨dev, hdev, exec_mwrite8_of_memWrite (memWrite_of_cb v hk hdev)⟩
  · exact exec_mwrite8_of_memWrite (memWrite_of_undef v hk)

end Sys2Proof.Machine
end

section
/-! PROOF. Illegal command words: a word the decoder accepts matches a row of the opcode table (30_encoding R54), and what
a step does with a word the decoder rejects (30_encoding R55), with the obligation about words that match no row. -/

namespace Sys2Proof

/-! ## The rows of the opcode table as formats (30_encoding R46 to R52, R54) -/

/-- The row stands for opcode `op` and the format with the fields `reserved`, each a lowest bit and a length, "reserved,
must be 0": its mask is the opcode field and the reserved fields, its pattern `op` and zeros. -/
def TableRow.hasFormat (row : TableRow) (op : Byte) (reserved : List (Nat × Nat)) : Bool :=
  field row.pattern 120 8 == op &&
  reserved.all (fun r => zeroField row.pattern r.1 r.2) &&
  row.pattern &&& row.mask == row.pattern &&
  decide (∀ k : Fin 128, row.mask.getLsbD k.val =
    ((120, 8) :: reserved).any (fun r => decide (r.1 ≤ k.val) && decide (k.val < r.1 + r.2)))

/-- A word matches a row exactly where it has the row's opcode and zeros in the reserved fields of the row's format. -/
theorem TableRow.matches_iff_of_hasFormat {row : TableRow} {op : Byte} {reserved : List (Nat × Nat)}
    (hrow : row.hasFormat op reserved = true) (cw : CommandWord) :
    row.matches cw = true ↔ field cw 120 8 = op ∧ reserved.all (fun r => zeroField cw r.1 r.2) = true := by
  simp only [TableRow.hasFormat, Bool.and_eq_true, beq_iff_eq, decide_eq_true_eq] at hrow
  obtain ⟨⟨⟨hop, hzero⟩, hpattern⟩, hmask⟩ := hrow
  simp only [List.all_eq_true, zeroField, beq_iff_eq] at hzero ⊢
  rw [TableRow.matches, beq_iff_eq, and_mask_eq_iff cw _ _ _ hmask hpattern, List.forall_mem_cons, hop]
  have hfields : ∀ r ∈ reserved, field cw r.1 r.2 = field row.pattern r.1 r.2 ↔ field cw r.1 r.2 = 0#r.2 :=
    fun r hr => by rw [hzero r hr]
  exact and_congr_right fun _ => forall₂_congr hfields

/-! ## Accepted words match a row (30_encoding R54) -/

/-- A word is accepted by `checked` exactly where its reserved bits are zero, and then it is the command given. -/
theorem checked_eq_ok_iff {op : Byte} {ok : Bool} {i j : Instr} : checked op ok i = .ok j ↔ ok = true ∧ i = j := by
  cases ok <;> simp [checked]

/-- One branch of the decoder: where the word has the branch's opcode and passes the check of the format's reserved bits,
some row matches it. -/
theorem exists_row_matches_of_branch {op : Byte} {cw : CommandWord} {ok : Bool} {i j : Instr}
    {others : Except Reject Instr} (reserved : List (Nat × Nat))
    (hrow : ∃ row ∈ opcodeTable, row.hasFormat op reserved = true)
    (hok : ok = reserved.all fun r => zeroField cw r.1 r.2)
    (hothers : others = .ok j → ∃ row ∈ opcodeTable, row.matches cw = true)
    (h : (if field cw 120 8 = op then checked (field cw 120 8) ok i else others) = .ok j) :
    ∃ row ∈ opcodeTable, row.matches cw = true := by
  rcases ite_eq_iff.1 h with ⟨hop, hchecked⟩ | ⟨-, hother⟩
  · obtain ⟨row, hmem, hformat⟩ := hrow
    have hzero : reserved.all (fun r => zeroField cw r.1 r.2) = true := hok ▸ (checked_eq_ok_iff.1 hchecked).1
    exact ⟨row, hmem, (TableRow.matches_iff_of_hasFormat hformat cw).2 ⟨hop, hzero⟩⟩
  · exact hothers hother

/-- Every word the decoder accepts matches a row of the opcode table. The branches stand in the decoder's order, each with
the reserved fields of its format. -/
theorem exists_row_matches_of_decode_ok {cw : CommandWord} {i : Instr} :
    decode cw = .ok i → ∃ row ∈ opcodeTable, row.matches cw = true := by
  unfold decode
  refine exists_row_matches_of_branch [(0, 120)] (by decide) (by simp) ?_
  refine exists_row_matches_of_branch [(106, 6), (50, 54), (18, 14)] (by decide) (by simp [Bool.and_assoc]) ?_
  refine exists_row_matches_of_branch [(0, 112)] (by decide) (by simp) ?_
  refine exists_row_matches_of_branch [(0, 104)] (by decide) (by simp) ?_
  refine exists_row_matches_of_branch [(0, 120)] (by decide) (by simp) ?_
  refine exists_row_matches_of_branch [(105, 15), (0, 88)] (by decide) (by simp) ?_
  refine exists_row_matches_of_branch [(0, 112)] (by decide) (by simp) ?_
  refine exists_row_matches_of_branch [(106, 6)] (by decide) (by simp) ?_
  refine exists_row_matches_of_branch [(105, 7), (0, 64)] (by decide) (by simp) ?_
  refine exists_row_matches_of_branch [(104, 16), (0, 88)] (by decide) (by simp) ?_
  refine exists_row_matches_of_branch [(104, 16), (72, 16), (0, 64)] (by decide) (by simp [Bool.and_assoc]) ?_
  refine exists_row_matches_of_branch [(105, 15), (0, 88)] (by decide) (by simp) ?_
  exact nofun

/-- A word that matches no row of the opcode table is rejected (30_encoding R55). -/
theorem decode_error_of_no_row {cw : CommandWord} (hno : ∀ row ∈ opcodeTable, row.matches cw = false) :
    ∃ reason, decode cw = .error reason := by
  cases hd : decode cw with
  | error reason => exact ⟨reason, rfl⟩
  | ok i =>
    obtain ⟨row, hmem, hmatch⟩ := exists_row_matches_of_decode_ok hd
    exact absurd hmatch (by simp [hno row hmem])

namespace Machine

/-! ## A step on a rejected word (30_encoding R55) -/

/-- A step on a word the decoder rejects takes the word and gives the answer to an illegal command. -/
theorem step_of_decode_error {s : State} {cw : CommandWord} {rest : List Input} {reason : Reject}
    (hport : s.port = .command cw :: rest) (hd : decode cw = .error reason) :
    step s = .next ((s.withPort rest).answerIllegal reason) := by
  simp only [step, fetch, hport, hd]

/-- The response to an illegal command: `ST` = 1 in bits 63:60 and zeros below (30_encoding R57, R58). -/
theorem responseWord_illegal : responseWord .illegal 0#8 false 0#32 = 0x1000000000000000#64 := by decide

/-- The state after an illegal command: one response more and the model's mark, all else as before (30_encoding R55). -/
theorem State.answerIllegal_eq (s : State) (reason : Reject) : s.answerIllegal reason =
    { s with rsps := s.rsps ++ [0x1000000000000000#64], mark := s.mark.or (some reason) } := by
  rw [← responseWord_illegal]
  rfl

/-- Settles O9: a word that matches no row is rejected by the decoder, and a step answers a rejected word by the illegal
response alone. -/
theorem illegalWordIsAnsweredAndChangesNothing : Obligations.IllegalWordIsAnsweredAndChangesNothing := by
  intro s cw rest hport hno
  obtain ⟨reason, hd⟩ := decode_error_of_no_row hno
  refine ⟨s.mark.or (some reason), ?_⟩
  rw [step_of_decode_error hport hd, State.answerIllegal_eq]
  rfl

end Machine
end Sys2Proof
end

section
/-! PROOF. What the four commands of the Flag Evaluator do, as equations between states (40_flag_evaluator R69 to R72). -/

namespace Sys2Proof.Machine

/-! ## The resolve loop and the write loop as updates of `F` and `DM` -/

/-- Two Flag Evaluators are equal when their six elements are. -/
theorem FlagEvaluator.eq_of_elements {g h : FlagEvaluator} (hf : g.f = h.f) (hfx : g.fx = h.fx) (hfy : g.fy = h.fy)
    (hsub : g.sub = h.sub) (hwide : g.wide = h.wide) (hdm : g.dm = h.dm) : g = h := by
  cases g
  cases h
  rw [FlagEvaluator.mk.injEq]
  exact ⟨hf, hfx, hfy, hsub, hwide, hdm⟩

/-- A resolve changes `F` and cleans the flags of its mask; the retained operands and the tags stay (40 R68). -/
theorem FlagEvaluator.resolve_eq (fe : FlagEvaluator) (mask : Byte) :
    fe.resolve mask = { fe with f := (fe.resolve mask).f, dm := fe.dm &&& ~~~mask } :=
  FlagEvaluator.eq_of_elements rfl (fe.resolve_fx mask) (fe.resolve_fy mask) (fe.resolve_sub mask)
    (fe.resolve_wide mask) (fe.resolve_dm mask)

/-- An eager write merges the value into `F` and cleans the flags of its mask; all else stays (40 R72). -/
theorem FlagEvaluator.writeFlags_eq (fe : FlagEvaluator) (mask v : Byte) :
    fe.writeFlags mask v = { fe with f := mergeBits fe.f mask v, dm := fe.dm &&& ~~~mask } :=
  FlagEvaluator.eq_of_elements (fe.writeFlags_f mask v) (fe.writeFlags_fx mask v) (fe.writeFlags_fy mask v)
    (fe.writeFlags_sub mask v) (fe.writeFlags_wide mask v) (fe.writeFlags_dm mask v)

/-! ## The commands -/

/-- Settles O15: `FRST` is the Flag Evaluator's reset and the response OK, by definition. -/
theorem frstResult : Obligations.FrstResult := fun _ => rfl

/-- Settles O16: `FREC` resolves under the complement of its mask, so a flag is recomputed where it is dirty and outside
the mask. -/
theorem frecResult : Obligations.FrecResult := by
  intro mask wide sub x y s
  refine ⟨(s.fe.resolve (~~~mask)).f, fun k => ?_, rfl⟩
  have hout : (~~~mask).getLsbD k.val = true ↔ mask.getLsbD k.val = false := by simp
  simp only [FlagEvaluator.resolve_f, hout, and_comm]

/-- Settles O17: `FGET` resolves under its mask. -/
theorem fgetResult : Obligations.FgetResult := by
  intro mask s
  refine ⟨(s.fe.resolve mask).f, s.fe.resolve_f mask, ?_⟩
  rw [← FlagEvaluator.resolve_eq]
  rfl

/-- Settles O19: `FSET` merges the value into `F` under its mask. -/
theorem fsetResult : Obligations.FsetResult := by
  intro mask value s
  refine ⟨mergeBits s.fe.f mask value, getLsbD_mergeBits s.fe.f mask value, ?_⟩
  rw [← FlagEvaluator.writeFlags_eq]
  rfl

end Sys2Proof.Machine
end

section
/-! PROOF. The flag functions on machine words: natural-number formulas of `flagOf` as bits of `W+2`-bit words
(40_flag_evaluator R66). -/

namespace Sys2Proof.Machine

/-- The wrapping sum or difference of `W+2`-bit words is the scaled result of their values. -/
theorem toNat_wrappingResult {w : Nat} (sub : Bool) (x y : BitVec (w + 2)) :
    (if sub then x - y else x + y).toNat = scaledResult w sub x.toNat y.toNat := by
  cases sub
  · exact BitVec.toNat_add x y
  · have hy := y.isLt
    have hcomm : 2 ^ (w + 2) - y.toNat + x.toNat = x.toNat + 2 ^ (w + 2) - y.toNat := by omega
    exact (BitVec.toNat_sub x y).trans (by rw [hcomm]; rfl)

/-- Bits `w` down to 1 of a word are all zero exactly where its half is a multiple of `2^w`: the test of the flag `Z`. -/
theorem half_mod_eq_zero_iff {n : Nat} (r : BitVec n) (w : Nat) : r.toNat / 2 % 2 ^ w = 0 ↔ r.extractLsb' 1 w = 0#w := by
  rw [← BitVec.toNat_inj, BitVec.extractLsb'_toNat, Nat.shiftRight_one, BitVec.toNat_ofNat, Nat.zero_mod]

/-- The eight flag functions on words that hold the operands and the scaled result. -/
theorem flagOf_toNat {w : Nat} {sub : Bool} {x y r : BitVec (w + 2)} (hr : r.toNat = scaledResult w sub x.toNat y.toNat) :
    flagOf w sub x.toNat y.toNat 0 = r.getLsbD (w + 1) ∧
    flagOf w sub x.toNat y.toNat 1 = sub ∧
    flagOf w sub x.toNat y.toNat 2 =
      (if sub then ((x ^^^ y) &&& (x ^^^ r)).getLsbD w else ((x ^^^ r) &&& (y ^^^ r)).getLsbD w) ∧
    flagOf w sub x.toNat y.toNat 3 = r.getLsbD (w - 4) ∧
    flagOf w sub x.toNat y.toNat 4 = (x ^^^ y ^^^ r).getLsbD (w - 3) ∧
    flagOf w sub x.toNat y.toNat 5 = r.getLsbD (w - 2) ∧
    flagOf w sub x.toNat y.toNat 6 = decide (r.extractLsb' 1 w = 0#w) ∧
    flagOf w sub x.toNat y.toNat 7 = r.getLsbD w := by
  simp only [flagOf, ← hr, ← BitVec.toNat_xor, ← BitVec.toNat_and, BitVec.testBit_toNat, ← half_mod_eq_zero_iff,
    beq_eq_decide, and_true]

/-- `Recompute(k)` reads the low `W+1` bits of each operand, as words of `W+2` bits (40 R66, R67). -/
theorem recomputeOn_eq_flagOf_toNat (fx fy : Operand) (sub wide : Bool) (k : Fin 8) :
    recomputeOn fx fy sub wide k =
      flagOf (widthOf wide) sub ((fx.setWidth (widthOf wide + 1)).setWidth (widthOf wide + 2)).toNat
        ((fy.setWidth (widthOf wide + 1)).setWidth (widthOf wide + 2)).toNat k := by
  have hwiden : ∀ v : Operand, ((v.setWidth (widthOf wide + 1)).setWidth (widthOf wide + 2)).toNat =
      v.toNat % 2 ^ (widthOf wide + 1) := fun v => by
    rw [BitVec.toNat_setWidth_of_le (by omega), BitVec.toNat_setWidth]
  rw [hwiden, hwiden]
  rfl

/-- Settles O20: both widths are the flag functions on words, at `W` = 8 and `W` = 16. -/
theorem recomputeBitFormulas : Obligations.RecomputeBitFormulas := by
  intro fx fy sub
  refine ⟨?_, ?_⟩
  · simp only [recomputeOn_eq_flagOf_toNat]
    exact flagOf_toNat (w := 8) (toNat_wrappingResult sub _ _)
  · simp only [recomputeOn_eq_flagOf_toNat]
    exact flagOf_toNat (w := 16) (toNat_wrappingResult sub _ _)

end Sys2Proof.Machine
end

section
/-! PROOF. The flags of the scaled operands are the eager flags (40_flag_evaluator sections 3 and 4): the bits of a sum and
of a difference with their carry and borrow, the flag functions on halved operands, and the eager references in the same
form. Every fact is about an operation of width `v + 8`, so about both widths. -/

namespace Sys2Proof.Machine

/-! ## The bits of sums and differences -/

/-- A bit of a sum with carry-in is the parity of the operands' bits and the carry out of the bits below it. -/
theorem testBit_add_carry (a b : Nat) (c : Bool) (i : Nat) :
    (a + b + c.toNat).testBit i =
      (a.testBit i ^^ b.testBit i ^^ decide (2 ^ i ≤ a % 2 ^ i + b % 2 ^ i + c.toNat)) := by
  have hbit := BitVec.getLsbD_add_add_bool (Nat.lt_succ_self i) (BitVec.ofNat (i + 1) a) (BitVec.ofNat (i + 1) b) c
  have hcin : BitVec.setWidth (i + 1) (BitVec.ofBool c) = BitVec.ofNat (i + 1) c.toNat := by
    cases c <;> exact BitVec.eq_of_toNat_eq (by simp)
  have hlow : ∀ u : Nat, u % 2 ^ (i + 1) % 2 ^ i = u % 2 ^ i := fun u =>
    Nat.mod_mod_of_dvd u (Nat.pow_dvd_pow 2 (Nat.le_succ i))
  simpa only [hcin, ← BitVec.ofNat_add, BitVec.getLsbD_ofNat, BitVec.carry, BitVec.toNat_ofNat, hlow, Bool.xor_assoc,
    Nat.lt_succ_self, decide_true, Bool.true_and, ge_iff_le] using hbit

/-- Where `d + b + c` and `a` agree in the bits below `i`, the sum carries out of them exactly where `a - b - c` borrows. -/
theorem carry_iff_borrow {a b d i : Nat} {c : Bool} (hd : (d + b + c.toNat) % 2 ^ i = a % 2 ^ i) :
    2 ^ i ≤ d % 2 ^ i + b % 2 ^ i + c.toNat ↔ a % 2 ^ i < b % 2 ^ i + c.toNat := by
  have hdlt := Nat.mod_lt d (Nat.two_pow_pos i)
  have hblt := Nat.mod_lt b (Nat.two_pow_pos i)
  have hc := c.toNat_le
  have hparts : (d % 2 ^ i + b % 2 ^ i + c.toNat) % 2 ^ i = a % 2 ^ i := by
    rw [← hd]
    simp [Nat.add_mod]
  rcases Nat.lt_or_ge (d % 2 ^ i + b % 2 ^ i + c.toNat) (2 ^ i) with hlt | hge
  · rw [Nat.mod_eq_of_lt hlt] at hparts
    omega
  · rw [Nat.mod_eq_sub_mod hge, Nat.mod_eq_of_lt (by omega)] at hparts
    omega

/-- A bit of a difference with borrow-in is the parity of the operands' bits and the borrow out of the bits below it. The
difference `d` is taken modulo `2^n`. -/
theorem testBit_sub_borrow {a b d n i : Nat} {c : Bool} (hd : (d + b + c.toNat) % 2 ^ n = a % 2 ^ n) (hi : i < n) :
    d.testBit i = (a.testBit i ^^ b.testBit i ^^ decide (a % 2 ^ i < b % 2 ^ i + c.toNat)) := by
  have hlow : (d + b + c.toNat) % 2 ^ i = a % 2 ^ i := by
    rw [← Nat.mod_mod_of_dvd _ (Nat.pow_dvd_pow 2 hi.le), hd, Nat.mod_mod_of_dvd _ (Nat.pow_dvd_pow 2 hi.le)]
  have hbit : (d + b + c.toNat).testBit i = a.testBit i := by
    have := congrArg (Nat.testBit · i) hd
    simpa [Nat.testBit_mod_two_pow, hi] using this
  simp only [← hbit, testBit_add_carry, carry_iff_borrow hlow]
  cases d.testBit i <;> cases b.testBit i <;> simp

/-! ## The flag functions on halved operands

The scaled operands carry one bit below the operands themselves (40 R65); no flag reads bit 0. -/

/-- The flag byte of a recorded operation of width `v + 8`, from the halves `a` and `b` of the scaled operands and the half
`q` of the scaled result (40 R66). -/
def halfFlags (v : Nat) (sub : Bool) (a b q : Nat) : Byte :=
  flagByte (q.testBit (v + 7)) (q % 2 ^ (v + 8) == 0) (q.testBit (v + 5))
    (a.testBit (v + 4) ^^ b.testBit (v + 4) ^^ q.testBit (v + 4)) (q.testBit (v + 3))
    (if sub then (a.testBit (v + 7) ^^ b.testBit (v + 7)) && (a.testBit (v + 7) ^^ q.testBit (v + 7))
      else (a.testBit (v + 7) ^^ q.testBit (v + 7)) && (b.testBit (v + 7) ^^ q.testBit (v + 7)))
    sub (q.testBit (v + 8))

/-- The recomputed flags are those of the halves of the retained operands and of the scaled result. -/
theorem recomputeByte_eq_halfFlags {v : Nat} {wide : Bool} (hw : widthOf wide = v + 8) (fx fy : Operand) (sub : Bool) :
    recomputeByte fx fy sub wide =
      halfFlags v sub (fx.toNat % 2 ^ (v + 9) / 2) (fy.toNat % 2 ^ (v + 9) / 2)
        (scaledResult (v + 8) sub (fx.toNat % 2 ^ (v + 9)) (fy.toNat % 2 ^ (v + 9)) / 2) := by
  simp only [recomputeByte, recomputeOn, hw, flagOf, halfFlags, Nat.testBit_div_two, Nat.testBit_xor, Nat.testBit_and]
  rfl

/-- The low `W+1` bits of a scaled operand are twice the operand, and the slot (40 R65). -/
theorem toNat_scaled_mod {w : Nat} (hw : w < 18) (a : BitVec w) (slot : Bool) :
    (scaled a slot).toNat % 2 ^ (w + 1) = 2 * a.toNat + slot.toNat := by
  have ha := a.isLt
  have hslot := slot.toNat_le
  have hlt : 2 * a.toNat + slot.toNat < 2 ^ (w + 1) := by
    rw [Nat.pow_succ]
    omega
  rw [scaled, BitVec.toNat_ofNat, Nat.mod_mod_of_dvd _ (Nat.pow_dvd_pow 2 hw), Nat.mod_eq_of_lt hlt]

/-! ## The eager references on halved operands (40 R77) -/

/-- The bits of `hi`, the top byte of the result, are the unreduced result's bits from `W-8` up. -/
theorem testBit_resultHigh (v q : Nat) {i : Nat} (hi : i < 8) :
    (q % 2 ^ (v + 8) / 2 ^ v).testBit i = q.testBit (v + i) := by
  simp [Nat.testBit_div_two_pow, Nat.testBit_mod_two_pow, Nat.add_comm i v, hi]

/-- An eager addition's flags are those of the halves `a`, `b` and the sum `a + b + c`. -/
theorem eagerAdd_eq_halfFlags {v a b : Nat} (ha : a < 2 ^ (v + 8)) (hb : b < 2 ^ (v + 8)) (c : Bool) :
    eagerAdd (v + 8) a b c = halfFlags v false a b (a + b + c.toNat) := by
  have hcarry : decide (a + b + c.toNat ≥ 2 ^ (v + 8)) = (a + b + c.toNat).testBit (v + 8) := by
    simp [testBit_add_carry, Nat.testBit_lt_two_pow ha, Nat.testBit_lt_two_pow hb, Nat.mod_eq_of_lt ha,
      Nat.mod_eq_of_lt hb]
  have hhalf : decide (a % 2 ^ (v + 4) + b % 2 ^ (v + 4) + c.toNat ≥ 2 ^ (v + 4)) =
      (a.testBit (v + 4) ^^ b.testBit (v + 4) ^^ (a + b + c.toNat).testBit (v + 4)) := by
    rw [testBit_add_carry]
    cases a.testBit (v + 4) <;> cases b.testBit (v + 4) <;> simp
  have hoverflow : ∀ x y r : Bool, (x == y && r != x) = ((x ^^ r) && (y ^^ r)) := by decide
  simp [eagerAdd, halfFlags, testBit_resultHigh, hcarry, hhalf, hoverflow]

/-- The result of an eager subtraction, a residue of an integer, is the residue of any natural number with the difference's
defining property. -/
theorem toNat_sub_emod {a b d n : Nat} {c : Bool} (hd : (d + b + c.toNat) % 2 ^ n = a % 2 ^ n) :
    (((a : Int) - b - c.toNat) % 2 ^ n).toNat = d % 2 ^ n := by
  have hsum : ((d : Int) + b + c.toNat) % 2 ^ n = a % 2 ^ n := by exact_mod_cast hd
  have hdiff : ((a : Int) - b - c.toNat) % 2 ^ n = d % 2 ^ n :=
    calc ((a : Int) - b - c.toNat) % 2 ^ n = (a - (b + c.toNat)) % 2 ^ n := by rw [sub_sub]
      _ = (d + b + c.toNat - (b + c.toNat)) % 2 ^ n := (Int.emod_sub_cancel_right _).2 hsum.symm
      _ = d % 2 ^ n := by rw [add_assoc, add_sub_cancel_right]
  rw [hdiff]
  exact_mod_cast Int.toNat_natCast (d % 2 ^ n)

/-- An eager subtraction's flags are those of the halves `a`, `b` and the difference `a - b - c` modulo `2^(W+1)`. -/
theorem eagerSub_eq_halfFlags {v a b d : Nat} {c : Bool} (ha : a < 2 ^ (v + 8)) (hb : b < 2 ^ (v + 8))
    (hd : (d + b + c.toNat) % 2 ^ (v + 9) = a % 2 ^ (v + 9)) :
    eagerSub (v + 8) a b c = halfFlags v true a b d := by
  have hresult : (((a : Int) - b - c.toNat) % 2 ^ (v + 8)).toNat = d % 2 ^ (v + 8) := by
    have hdvd := Nat.pow_dvd_pow 2 (Nat.le_succ (v + 8))
    exact toNat_sub_emod (by rw [← Nat.mod_mod_of_dvd _ hdvd, hd, Nat.mod_mod_of_dvd _ hdvd])
  have hnegative : ∀ x y : Nat, decide ((x : Int) - y - c.toNat < 0) = decide (x < y + c.toNat) := fun x y =>
    decide_eq_decide.2 (by omega)
  have hborrow : decide (a < b + c.toNat) = d.testBit (v + 8) := by
    simp [testBit_sub_borrow hd, Nat.testBit_lt_two_pow ha, Nat.testBit_lt_two_pow hb, Nat.mod_eq_of_lt ha,
      Nat.mod_eq_of_lt hb]
  have hhalf : decide (a % 2 ^ (v + 4) < b % 2 ^ (v + 4) + c.toNat) =
      (a.testBit (v + 4) ^^ b.testBit (v + 4) ^^ d.testBit (v + 4)) := by
    rw [testBit_sub_borrow hd (by omega)]
    cases a.testBit (v + 4) <;> cases b.testBit (v + 4) <;> simp
  have hoverflow : ∀ x y r : Bool, (x != y && r != x) = ((x ^^ y) && (x ^^ r)) := by decide
  simp only [eagerSub, hresult, hnegative, hborrow, hoverflow]
  simp [halfFlags, testBit_resultHigh, hhalf]

/-! ## The flags of scaled operands (40 R78) -/

/-- Half of a scaled operand is the operand, whatever its slot holds. -/
theorem half_scaled (n : Nat) (slot : Bool) : (2 * n + slot.toNat) / 2 = n := by
  have hslot := slot.toNat_le
  omega

/-- Both scaled operands of an addition carry the carry-in in their slot, so half of their sum is `a + b + c`. -/
theorem half_scaledResult_add {w a b : Nat} (ha : a < 2 ^ w) (hb : b < 2 ^ w) (c : Bool) :
    scaledResult w false (2 * a + c.toNat) (2 * b + c.toNat) / 2 = a + b + c.toNat := by
  have hc := c.toNat_le
  have hlt : 2 * a + c.toNat + (2 * b + c.toNat) < 2 ^ (w + 2) := by
    rw [Nat.pow_add]
    omega
  simp only [scaledResult, Bool.false_eq_true, if_false, Nat.mod_eq_of_lt hlt]
  omega

/-- Only the second scaled operand of a subtraction carries the borrow-in, so half of the scaled difference is `a - b - c`
modulo `2^(W+1)`. -/
theorem half_scaledResult_sub {w b : Nat} (a : Nat) (hb : b < 2 ^ w) (c : Bool) :
    (scaledResult w true (2 * a) (2 * b + c.toNat) / 2 + b + c.toNat) % 2 ^ (w + 1) = a % 2 ^ (w + 1) := by
  have hc := c.toNat_le
  have hpow : 2 ^ (w + 1) = 2 ^ w * 2 := Nat.pow_succ 2 w
  have hhalf : (2 * a + 2 ^ (w + 2) - (2 * b + c.toNat)) / 2 = a + 2 ^ (w + 1) - b - c.toNat := by
    rw [Nat.pow_succ 2 (w + 1)]
    omega
  have hsum : a + 2 ^ (w + 1) - b - c.toNat + b + c.toNat = a + 2 ^ (w + 1) := by omega
  have hsplit : 2 ^ (w + 2) = 2 * 2 ^ (w + 1) := Nat.pow_succ'
  rw [scaledResult, if_pos rfl, hsplit, Nat.mod_mul_right_div_self, ← hsplit, hhalf, Nat.add_assoc, Nat.mod_add_mod,
    ← Nat.add_assoc, hsum, Nat.add_mod_right]

section

variable {v : Nat} {wide : Bool} (hw : widthOf wide = v + 8) (a b : BitVec (v + 8)) (c : Bool)

include hw

/-- The low `W+1` bits of a scaled operand at either of the two widths. -/
theorem toNat_scaled_of_width : (scaled a c).toNat % 2 ^ (v + 9) = 2 * a.toNat + c.toNat :=
  toNat_scaled_mod (by cases wide <;> simp [widthOf] at hw <;> omega) a c

/-- The flags of a recorded addition are those of the eager addition. -/
theorem recomputeByte_scaled_add :
    recomputeByte (scaled a c) (scaled b c) false wide = eagerAdd (v + 8) a.toNat b.toNat c := by
  rw [recomputeByte_eq_halfFlags hw, toNat_scaled_of_width hw, toNat_scaled_of_width hw, half_scaled, half_scaled,
    half_scaledResult_add a.isLt b.isLt, eagerAdd_eq_halfFlags a.isLt b.isLt]

/-- The flags of a recorded subtraction are those of the eager subtraction. -/
theorem recomputeByte_scaled_sub :
    recomputeByte (scaled a false) (scaled b c) true wide = eagerSub (v + 8) a.toNat b.toNat c := by
  rw [recomputeByte_eq_halfFlags hw, toNat_scaled_of_width hw, toNat_scaled_of_width hw, half_scaled, half_scaled,
    eagerSub_eq_halfFlags a.isLt b.isLt (half_scaledResult_sub a.toNat b.isLt c)]
  rfl

end

end Sys2Proof.Machine
end

section
/-! PROOF. The pseudo-instructions of the Flag Evaluator (40_flag_evaluator R80 to R86): the architectural flag byte after
the two writing commands, the answer of the reading one, and the obligations about each expansion. -/

namespace Sys2Proof.Machine

/-! ## The architectural flag byte after a record and after an eager write (10_state R15) -/

/-- A record merges the new operation's flags into the architectural flag byte (40 R70). -/
theorem FlagEvaluator.flagValByte_record (fe : FlagEvaluator) (mask : Byte) (wide sub : Bool) (x y : Operand) :
    (fe.record mask wide sub x y).flagValByte = mergeBits fe.flagValByte mask (recomputeByte x y sub wide) := by
  refine byte_ext _ _ fun j => ?_
  simp only [getLsbD_flagValByte, flagVal_record, getLsbD_mergeBits, getLsbD_recomputeByte]

/-- An eager write merges the value into the architectural flag byte (40 R72). -/
theorem FlagEvaluator.flagValByte_writeFlags (fe : FlagEvaluator) (mask v : Byte) :
    (fe.writeFlags mask v).flagValByte = mergeBits fe.flagValByte mask v := by
  refine byte_ext _ _ fun j => ?_
  simp only [getLsbD_flagValByte, flagVal_writeFlags, getLsbD_mergeBits]

/-- Under its mask, `F` after a resolve is the architectural flag byte (40 R71). -/
theorem FlagEvaluator.resolve_f_and_mask (fe : FlagEvaluator) (mask : Byte) :
    (fe.resolve mask).f &&& mask = fe.flagValByte &&& mask := by
  refine byte_ext _ _ fun j => ?_
  rw [BitVec.getLsbD_and, BitVec.getLsbD_and, resolve_f, getLsbD_flagValByte, flagVal]
  cases mask.getLsbD j.val <;> simp

/-- Under the full mask nothing of the old byte is left. -/
theorem mergeBits_full (old new : Byte) : mergeBits old 0xFF#8 new = new := by
  refine byte_ext _ _ fun j => ?_
  have hfull : (0xFF#8 : Byte).getLsbD j.val = true := by revert j; decide
  rw [getLsbD_mergeBits, if_pos hfull]

/-- A merge with the new byte's part written first, as 40_flag_evaluator R83 and R84 give it. -/
theorem mergeBits_eq_new_or_old (old mask new : Byte) :
    mergeBits old mask new = (new &&& mask) ||| (old &&& ~~~mask) := BitVec.or_comm _ _

/-- Two merges under a mask and its complement leave nothing of the old byte. -/
theorem mergeBits_mergeBits_not (old mask new v : Byte) :
    mergeBits (mergeBits old mask new) (~~~mask) v = (new &&& mask) ||| (v &&& ~~~mask) := by
  refine byte_ext _ _ fun j => ?_
  have hj := j.isLt
  simp only [getLsbD_mergeBits, BitVec.getLsbD_or, BitVec.getLsbD_and, BitVec.getLsbD_not]
  cases mask.getLsbD j.val <;> simp

/-! ## Runs of flag commands -/

/-- The run of one `FREC`. -/
theorem runCommands_frec (mask : Byte) (wide sub : Bool) (x y : Operand) (s : State) :
    ∃ t, runCommands [.frec mask wide sub x y] s = .next t ∧
      t.fe.flagValByte = mergeBits s.fe.flagValByte mask (recomputeByte x y sub wide) :=
  ⟨_, rfl, s.fe.flagValByte_record mask wide sub x y⟩

/-- The run of one `FREC` under the full mask leaves the new operation's flags. -/
theorem runCommands_frec_full (wide sub : Bool) (x y : Operand) (s : State) :
    ∃ t, runCommands [.frec 0xFF#8 wide sub x y] s = .next t ∧ t.fe.flagValByte = recomputeByte x y sub wide := by
  simpa only [mergeBits_full] using runCommands_frec 0xFF#8 wide sub x y s

/-- The run of a `FREC` and an `FSET` after it. -/
theorem runCommands_frec_fset (mask : Byte) (wide sub : Bool) (x y : Operand) (written value : Byte) (s : State) :
    ∃ t, runCommands [.frec mask wide sub x y, .fset written value] s = .next t ∧
      t.fe.flagValByte =
        mergeBits (mergeBits s.fe.flagValByte mask (recomputeByte x y sub wide)) written value := by
  refine ⟨_, rfl, ?_⟩
  rw [← FlagEvaluator.flagValByte_record]
  exact FlagEvaluator.flagValByte_writeFlags _ written value

/-- `VAL` of a response word is the value it was built from (30_encoding R57). -/
theorem rspVal_responseWord (st : Status) (aux : Handle) (iscb : Bool) (val : Pointer) :
    rspVal (responseWord st aux iscb val) = val := BitVec.extractLsb'_append_eq_right

/-- The run of one `FGET` answers the architectural flags under its mask. -/
theorem runCommands_fget (mask : Byte) (s : State) :
    ∃ t w, runCommands [.fget mask] s = .next t ∧ t.rsps = s.rsps ++ [w] ∧
      rspVal w = (s.fe.flagValByte &&& mask).setWidth 32 := by
  refine ⟨_, _, rfl, rfl, ?_⟩
  rw [rspVal_responseWord, FlagEvaluator.resolve_f_and_mask]

/-! ## The recorded operations (40 R80 to R85) -/

/-- Settles O27: both are records under the full mask of a scaled byte addition. -/
theorem recordedByteAddition : Obligations.RecordedByteAddition := by
  intro a b c s
  have hrec : ∀ cin : Bool, ∃ t, runCommands (Pseudo.recAdc8 a b cin).expand s = .next t ∧
      t.fe.flagValByte = eagerAdd 8 a.toNat b.toNat cin := fun cin => by
    rw [← recomputeByte_scaled_add (v := 0) (wide := false) rfl]
    exact runCommands_frec_full false false _ _ s
  exact ⟨hrec false, hrec c⟩

/-- Settles O28: both are records under the full mask of a scaled byte subtraction. -/
theorem recordedByteSubtraction : Obligations.RecordedByteSubtraction := by
  intro a b c s
  have hrec : ∀ cin : Bool, ∃ t, runCommands (Pseudo.recSbc8 a b cin).expand s = .next t ∧
      t.fe.flagValByte = eagerSub 8 a.toNat b.toNat cin := fun cin => by
    rw [← recomputeByte_scaled_sub (v := 0) (wide := false) rfl]
    exact runCommands_frec_full false true _ _ s
  exact ⟨hrec false, hrec c⟩

/-- Settles O32: both are records under the full mask of a scaled word operation. -/
theorem recordedWordCarryOperations : Obligations.RecordedWordCarryOperations := by
  intro a b c s
  rw [← recomputeByte_scaled_add (v := 8) (wide := true) rfl, ← recomputeByte_scaled_sub (v := 8) (wide := true) rfl]
  exact ⟨runCommands_frec_full true false _ _ s, runCommands_frec_full true true _ _ s⟩

/-- Settles O31: a record of a scaled word addition under the mask of `Y`, `H`, `X`, `N` and `C`. -/
theorem recordedWordAddition : Obligations.RecordedWordAddition := by
  intro a b s
  obtain ⟨t, hrun, hflags⟩ := runCommands_frec 0x3B#8 true false (scaled a false) (scaled b false) s
  rw [recomputeByte_scaled_add (v := 8) rfl, mergeBits_eq_new_or_old] at hflags
  exact ⟨t, hrun, hflags⟩

/-- Settles O30: `INC8` and `DEC8` record with 1 as the second operand under the mask without `C`, `NEG8` the subtraction
from 0 under the full mask. -/
theorem recordedIncrementDecrementNegate : Obligations.RecordedIncrementDecrementNegate := by
  intro a s
  refine ⟨?_, ?_, ?_⟩
  · obtain ⟨t, hrun, hflags⟩ := runCommands_frec 0xFE#8 false false (scaled a false) (scaled 1#8 false) s
    rw [recomputeByte_scaled_add (v := 0) rfl, mergeBits_eq_new_or_old] at hflags
    exact ⟨t, hrun, hflags⟩
  · obtain ⟨t, hrun, hflags⟩ := runCommands_frec 0xFE#8 false true (scaled a false) (scaled 1#8 false) s
    rw [recomputeByte_scaled_sub (v := 0) rfl, mergeBits_eq_new_or_old] at hflags
    exact ⟨t, hrun, hflags⟩
  · obtain ⟨t, hrun, hflags⟩ := runCommands_frec_full false true (scaled 0#8 false) (scaled a false) s
    rw [recomputeByte_scaled_sub (v := 0) rfl] at hflags
    exact ⟨t, hrun, hflags⟩

/-- Settles O29: the record of a scaled byte subtraction under the mask without `Y` and `X`, then an eager write of these
two. -/
theorem recordedCompare : Obligations.RecordedCompare := by
  intro a b s
  obtain ⟨t, hrun, hflags⟩ := runCommands_frec_fset 0xD7#8 false true (scaled a false) (scaled b false) 0x28#8
    (b &&& 0x28#8) s
  have hmasks : (0x28#8 : Byte) = ~~~0xD7#8 := by decide
  have hcopy : b &&& 0x28#8 &&& 0x28#8 = b &&& 0x28#8 := by rw [BitVec.and_assoc, BitVec.and_self]
  refine ⟨t, hrun, ?_⟩
  rw [hflags, recomputeByte_scaled_sub (v := 0) rfl, hmasks, mergeBits_mergeBits_not, ← hmasks, hcopy]

/-! ## Reading and writing flags (40 R86) -/

/-- One bit of a byte, at its own position in a 32-bit value. -/
theorem setWidth_and_twoPow (v : Byte) (k : Fin 8) :
    (v &&& BitVec.twoPow 8 k.val).setWidth 32 = if v.getLsbD k.val = true then BitVec.ofNat 32 (2 ^ k.val) else 0#32 := by
  have hone : (BitVec.twoPow 8 k.val).setWidth 32 = BitVec.ofNat 32 (2 ^ k.val) := by revert k; decide
  rw [BitVec.and_twoPow]
  split
  · exact hone
  · rfl

/-- Settles O33: each is one `FGET` or `FSET`; the mask of a one-flag read is the flag's own bit. -/
theorem flagReadAndWritePseudoInstructions : Obligations.FlagReadAndWritePseudoInstructions := by
  intro s v
  refine ⟨fun q k hq => ?_, ?_, ?_⟩
  · have hexpand : ∀ r ∈ ([(.fgetc, 0), (.fgetn, 1), (.fgetpv, 2), (.fgeth, 4), (.fgetz, 6), (.fgets, 7)] :
        List (Pseudo × Fin 8)), r.1.expand = [.fget (BitVec.twoPow 8 r.2.val)] := by decide
    rw [hexpand (q, k) hq, ← FlagEvaluator.getLsbD_flagValByte, ← setWidth_and_twoPow]
    exact runCommands_fget _ s
  · have hall : s.fe.flagValByte &&& 0xFF#8 = s.fe.flagValByte := BitVec.and_allOnes
    have hget := runCommands_fget 0xFF#8 s
    rw [hall] at hget
    exact hget
  · refine ⟨_, rfl, ?_, ?_⟩
    · exact (s.fe.flagValByte_writeFlags 0xFF#8 v).trans (mergeBits_full _ v)
    · exact (s.fe.writeFlags_dm 0xFF#8 v).trans BitVec.and_zero

end Sys2Proof.Machine
end

section
/-! PROOF. What the commands of the Memory Arbiter answer, one equation per outcome, and the obligations about the commands
that release nothing and grant nothing (41_memory_arbiter R95, R96, R104). -/

namespace Sys2Proof.Machine

/-! ## The checks as values (41_memory_arbiter R92 to R94) -/

theorem Arbiter.validHandle_eq_usedAt (m : Arbiter) (h : Handle) : m.validHandle h = m.usedAt h.toNat :=
  Bool.eq_iff_iff.2 (m.validHandle_iff h)

/-- An index that is no slot or a free slot has no used slot (41_memory_arbiter R92). -/
theorem Arbiter.usedAt_eq_false_of_invalid {m : Arbiter} {t : Nat} (h : m.nslot ≤ t ∨ m.usedAt t = false) :
    m.usedAt t = false := h.elim (m.usedAt_of_ge t) id

/-- A range whose end lies in the address space passes the check; its length needs no check of its own. -/
theorem argCheck_of_end_le {addr : Address} {len : BitVec 24} (hend : addr.toNat + len.toNat ≤ 65536) :
    argCheck addr len = true := (argCheck_iff addr len).2 ⟨by omega, hend⟩

theorem argCheck_eq_false {addr : Address} {len : BitVec 24}
    (hbad : len.toNat > 65536 ∨ addr.toNat + len.toNat > 65536) : argCheck addr len = false := by
  rw [Bool.eq_false_iff, Ne, argCheck_iff]
  omega

theorem Arbiter.isBackstop_eq_false {m : Arbiter} {h : Handle} (hlt : h.toNat + 1 < m.nslot) :
    m.isBackstop h = false := by
  rw [Bool.eq_false_iff, Ne, Arbiter.isBackstop_iff]
  omega

/-! ## `MINIT`, `MCONN` and `MPAGE` -/

/-- Settles O38: the tables after `MINIT` are the reset tables. -/
theorem minitResult : Obligations.MinitResult := by
  intro s
  refine ⟨Arbiter.reset s.ma.nslot, ?_, Arbiter.nslot_reset _, Arbiter.usedAt_reset _, fun t ht => ?_,
    Arbiter.gtAt_reset _, Arbiter.lvAt_reset _, fun d p t => Arbiter.ptAt_reset _ t d p⟩
  · rw [← State.resetArbiter_ma]
    rfl
  · rw [Arbiter.nslot_reset] at ht
    rw [Arbiter.devAt_reset, if_pos ht]

theorem exec_mconn_of_no_slot {s : State} {high : Bool} (dev : DeviceId) (hk : s.ma.chooseSlot high = none) :
    exec (.mconn high dev) s = .next (s.respond .noSlot Config.invalidHandle false 0#32) := by
  simp only [exec, execMconn, hk]

theorem exec_mconn_of_slot {s : State} {high : Bool} {k : Nat} (dev : DeviceId) (hk : s.ma.chooseSlot high = some k) :
    exec (.mconn high dev) s =
      .next (State.respond { s with ma := s.ma.setSlot k true dev } .ok (BitVec.ofNat 8 k) false 0#32) := by
  simp only [exec, execMconn, hk]

/-- Settles O39, by what `MCONN`'s choice of a slot finds: nothing exactly where every slot is used, and otherwise the
outermost free slot, on which the one write of `SLOT` takes place. -/
theorem mconnResult : Obligations.MconnResult := by
  intro high dev s
  refine ⟨fun hall => exec_mconn_of_no_slot dev ((s.ma.chooseSlot_eq_none_iff high).2 hall), ?_⟩
  rintro ⟨j, hj, hfree⟩
  cases hk : s.ma.chooseSlot high with
  | none =>
    have hused := (s.ma.chooseSlot_eq_none_iff high).1 hk j hj
    simp [hfree] at hused
  | some k =>
    obtain ⟨hlt, hu, hlow, hhigh⟩ := s.ma.chooseSlot_eq_some high k hk
    refine ⟨k, s.ma.setSlot k true dev, hlt, hu, hlow, hhigh, exec_mconn_of_slot dev hk, s.ma.nslot_setSlot k true dev,
      ?_, ?_, fun j hjk => ?_, s.ma.gtAt_setSlot k true dev, s.ma.lvAt_setSlot k true dev, s.ma.ptAt_setSlot k true dev⟩
    · rw [Arbiter.usedAt_setSlot, if_pos ⟨rfl, hlt⟩]
    · rw [Arbiter.devAt_setSlot, if_pos ⟨rfl, hlt⟩]
    · simp [Arbiter.usedAt_setSlot, Arbiter.devAt_setSlot, hjk]

/-- `ISCB` is 1 exactly for an entry that is no raw pointer (41_memory_arbiter R104). -/
theorem Entry.iscb_eq (e : Entry) : e.iscb = decide (e.kind ≠ .ptr) := by
  rw [Entry.iscb, bne, decide_not]
  rfl

/-- Settles O45: the page of the address is the quotient by the page size, and `MPAGE` reports the entry it resolves to. -/
theorem mpageResult : Obligations.MpageResult := by
  intro d a s e p hp he
  have hpage : p = pageOf a := Fin.ext (hp.trans (pageOf_val a).symm)
  subst he hpage
  rw [← Entry.iscb_eq]
  rfl

end Sys2Proof.Machine
end

section
/-! PROOF. Granting pages: the obligations about `MALLOC` and its two pseudo-instructions (41_memory_arbiter R98, R105). -/

namespace Sys2Proof.Machine

/-- The page index of a range counts from the quotient of its address by the page size (20_memory R31). -/
theorem firstPage_eq (addr : Address) : firstPage addr = addr.toNat / 1024 := pageOf_val addr

section
variable {s : State} {h : Handle} {d : Dir} {addr : Address} {len : BitVec 24} (iscb : Bool) (target stride : Pointer)

theorem exec_malloc_badHandle (hu : s.ma.usedAt h.toNat = false) :
    exec (.malloc h iscb d addr len target stride) s = .next (s.respondStatus .badHandle) := by
  simp [exec, execMalloc, Arbiter.validHandle_eq_usedAt, hu]

theorem exec_malloc_badArg (hu : s.ma.usedAt h.toNat = true) (ha : argCheck addr len = false) :
    exec (.malloc h iscb d addr len target stride) s = .next (s.respondStatus .badArg) := by
  simp [exec, execMalloc, Arbiter.validHandle_eq_usedAt, hu, ha]

theorem exec_malloc_ok (hu : s.ma.usedAt h.toNat = true) (ha : argCheck addr len = true) :
    exec (.malloc h iscb d addr len target stride) s = .next (State.respondStatus
      { s with ma := s.ma.allocPages h.toNat d (grantEntry h iscb addr target stride) (cover addr len) } .ok) := by
  simp [exec, execMalloc, Arbiter.validHandle_eq_usedAt, hu, ha, Arbiter.allocRange_eq]

/-- The run of one `MALLOC` that is granted puts the granted entries into the handle's local view. -/
theorem runCommands_malloc (hu : s.ma.usedAt h.toNat = true) (ha : argCheck addr len = true) :
    ∃ t, runCommands [.malloc h iscb d addr len target stride] s = .next t ∧
      ∀ p ∈ cover addr len, t.ma.lvAt h.toNat d p = grantEntry h iscb addr target stride p := by
  have hlt := s.ma.lt_of_usedAt _ hu
  simp only [runCommands, exec_malloc_ok iscb target stride hu ha]
  refine ⟨_, rfl, fun p hp => ?_⟩
  rw [State.respondStatus_ma, Arbiter.lvAt_allocPages, if_pos ⟨rfl, hlt, rfl, hp⟩]

end

/-- Settles O41: the two failing answers in the order of their checks; otherwise each element of the tables as the loop of
`MALLOC` leaves it, a covered page or another, the handle's own slot or another. -/
theorem mallocResult : Obligations.MallocResult := by
  intro h iscb d addr len target stride s
  refine ⟨fun hbad => exec_malloc_badHandle iscb target stride (Arbiter.usedAt_eq_false_of_invalid hbad),
    fun _ hu hbad => exec_malloc_badArg iscb target stride hu (argCheck_eq_false hbad), fun hlt hu hend => ?_⟩
  refine ⟨_, exec_malloc_ok iscb target stride hu (argCheck_of_end_le hend), by simp, by simp, fun p hp => ?_,
    fun d' p hout => ?_, fun t d' p ht => ?_⟩
  · simp only [← firstPage_eq]
    refine ⟨?_, ?_, fun hlow => ?_, fun ⟨t, ht, hlive⟩ => ?_⟩
    · rw [Arbiter.lvAt_allocPages, if_pos ⟨rfl, hlt, rfl, hp⟩, grantEntry]
    · rw [Arbiter.ptAt_allocPages, if_pos ⟨rfl, hlt, rfl, hp⟩]
    · rw [Arbiter.gtAt_allocPages, if_pos ⟨rfl, hp, hlt, hlow⟩, grantEntry]
    · rw [Arbiter.gtAt_allocPages, if_neg]
      rintro ⟨-, -, -, hlow⟩
      simp [hlow t ht] at hlive
  · have hnot : ¬(d' = d ∧ p ∈ cover addr len) := not_and_or.2 hout
    refine ⟨?_, ?_, ?_⟩
    · rw [Arbiter.lvAt_allocPages, if_neg fun hc => hnot hc.2.2]
    · rw [Arbiter.ptAt_allocPages, if_neg fun hc => hnot hc.2.2]
    · rw [Arbiter.gtAt_allocPages, if_neg fun hc => hnot ⟨hc.1, hc.2.1⟩]
  · simp [Arbiter.lvAt_allocPages, Arbiter.ptAt_allocPages, ht]

/-- With the page size as the stride, page `i` of the range lies at `ptr + 1024*i` (41_memory_arbiter R105). -/
theorem grantEntry_pageStride (h : Handle) (addr : Address) (ptr : Pointer) (p : Page) :
    grantEntry h false addr ptr 0x400#32 p =
      { kind := .ptr, target := ptr + BitVec.ofNat 32 (1024 * (p.val - addr.toNat / 1024)), owner := h } := by
  rw [grantEntry, firstPage_eq, BitVec.ofNat_mul, BitVec.mul_comm]
  rfl

/-- With stride 0 every page has the same target (41_memory_arbiter R105). -/
theorem grantEntry_zeroStride (h : Handle) (addr : Address) (fn : Pointer) (p : Page) :
    grantEntry h true addr fn 0#32 p = { kind := .cb, target := fn, owner := h } := by
  simp [grantEntry]

/-- Settles O48: each is the run of one granted `MALLOC`, whose entries have the page size or 0 as their stride. -/
theorem pageAllocationPseudoInstructions : Obligations.PageAllocationPseudoInstructions := by
  intro h d addr len ptr s _ hu hend
  have ha := argCheck_of_end_le hend
  obtain ⟨t, hrun, hlv⟩ := runCommands_malloc (d := d) false ptr 0x400#32 hu ha
  obtain ⟨t', hrun', hlv'⟩ := runCommands_malloc (d := d) true ptr 0#32 hu ha
  exact ⟨⟨t, hrun, fun p hp => (hlv p hp).trans (grantEntry_pageStride h addr ptr p)⟩,
    ⟨t', hrun', fun p hp => (hlv' p hp).trans (grantEntry_zeroStride h addr ptr p)⟩⟩

end Sys2Proof.Machine
end

section
/-! PROOF. Releasing pages: what the loops of `MREL` and `MDISC` leave in the tables, and the obligations about these two
commands (41_memory_arbiter R97, R99). -/

namespace Sys2Proof.Machine

/-! ## The loop over both directions (41_memory_arbiter R97) -/

theorem Arbiter.ptAt_releaseAll (m : Arbiter) (h : Handle) (d : Dir) (p : Page) (t : Nat) :
    (m.releaseAll h).ptAt d p t = if t = h.toNat then false else m.ptAt d p t := by
  rw [Arbiter.releaseAll_eq]
  cases d <;> simp [Arbiter.ptAt_releasePages, mem_allPages]

theorem Arbiter.lvAt_releaseAll (m : Arbiter) (h : Handle) (t : Nat) (d : Dir) (p : Page) :
    (m.releaseAll h).lvAt t d p =
      if t = h.toNat ∧ m.ptAt d p h.toNat = true then undefEntry else m.lvAt t d p := by
  rw [Arbiter.releaseAll_eq]
  cases d <;> simp [Arbiter.lvAt_releasePages, Arbiter.ptAt_releasePages, mem_allPages]

/-- Both loops together reload a global entry exactly where the released handle owned it: the loop of the other direction
changes neither the entry nor what shows through on the page. -/
theorem Arbiter.gtAt_releaseAll (m : Arbiter) (h : Handle) (d : Dir) (p : Page) :
    (m.releaseAll h).gtAt d p =
      if m.ptAt d p h.toNat = true ∧ (m.gtAt d p).owner = h then (m.releaseAll h).visibleEntry d p
      else m.gtAt d p := by
  rw [Arbiter.releaseAll_eq]
  cases d with
  | r =>
    have hvis : ((m.releasePages h .r allPages).releasePages h .w allPages).visibleEntry .r p =
        (m.releasePages h .r allPages).visibleEntry .r p :=
      Arbiter.visibleEntry_congr _ _ _ _ (by simp [Arbiter.ptAt_releasePages]) (by simp [Arbiter.lvAt_releasePages])
    rw [hvis]
    simp [Arbiter.gtAt_releasePages, mem_allPages]
  | w => simp [Arbiter.gtAt_releasePages, Arbiter.ptAt_releasePages, mem_allPages]

/-! ## Releases in the terms of `ReleasedOn` (41_memory_arbiter R99) -/

/-- A release described element by element: `PT` and `LV` lose the handle's grants, and `GT` shows what shows through where
the handle owned the entry. A slot that is live afterwards is another slot, so its local view is the old one. -/
theorem Arbiter.releasedOn_of_tables {m n : Arbiter} {h : Handle} {released : Dir → Page → Prop}
    [∀ d p, Decidable (released d p)] (hnslot : n.nslot = m.nslot)
    (hpt : ∀ d p t, n.ptAt d p t = if t = h.toNat ∧ released d p then false else m.ptAt d p t)
    (hlv : ∀ t d p, n.lvAt t d p =
      if t = h.toNat ∧ released d p ∧ m.ptAt d p h.toNat = true then undefEntry else m.lvAt t d p)
    (hgt : ∀ d p, n.gtAt d p =
      if released d p ∧ m.ptAt d p h.toNat = true ∧ (m.gtAt d p).owner = h then n.visibleEntry d p
      else m.gtAt d p) :
    Arbiter.ReleasedOn m n h released := by
  refine ⟨hnslot, fun d p hr => ⟨?_, fun hlive => ?_, fun hdead => ?_, fun hlive hown => ?_, fun hkeep => ?_⟩,
    fun d p hr => ?_, fun d p t ht => ?_⟩
  · simp [hpt, hr]
  · simp [hlv, hr, hlive]
  · simp [hlv, hdead]
  · rw [hgt, if_pos ⟨hr, hlive, hown⟩, Arbiter.visibleEntry]
    cases hfirst : n.firstLive d p with
    | none => rfl
    | some t =>
      obtain ⟨hlive', -⟩ := (n.firstLive_eq_some_iff d p t).1 hfirst
      have ht : t ≠ h.toNat := by
        rintro rfl
        simp [hpt, hr] at hlive'
      simp [hlv, ht]
  · rw [hgt, if_neg]
    rintro ⟨-, hlive, hown⟩
    simp [hlive, hown] at hkeep
  · simp [hpt, hlv, hgt, hr]
  · simp [hpt, hlv, ht]

theorem Arbiter.releasedOn_releasePages (m : Arbiter) (h : Handle) (d : Dir) (l : List Page) :
    Arbiter.ReleasedOn m (m.releasePages h d l) h (fun d' p => d' = d ∧ p ∈ l) := by
  refine Arbiter.releasedOn_of_tables (m.nslot_releasePages h d l) (m.ptAt_releasePages h d l) (fun t d' p => ?_)
    (fun d' p => ?_)
  · rw [Arbiter.lvAt_releasePages]
    by_cases hd : d' = d
    · subst hd; simp
    · simp [hd]
  · rw [Arbiter.gtAt_releasePages]
    by_cases hd : d' = d
    · subst hd; simp
    · simp [hd]

/-- Freeing the slot after the loops leaves the other tables as the loops left them. -/
theorem Arbiter.releasedOn_releaseAll_setSlot (m : Arbiter) (h : Handle) (u : Bool) (dev : DeviceId) :
    Arbiter.ReleasedOn m ((m.releaseAll h).setSlot h.toNat u dev) h (fun _ _ => True) := by
  refine Arbiter.releasedOn_of_tables ?_ ?_ ?_ ?_
  · simp [Arbiter.releaseAll_eq]
  · simp [Arbiter.ptAt_releaseAll]
  · simp [Arbiter.lvAt_releaseAll]
  · intro d p
    have hvis : ((m.releaseAll h).setSlot h.toNat u dev).visibleEntry d p = (m.releaseAll h).visibleEntry d p :=
      Arbiter.visibleEntry_congr _ _ _ _ (by simp) (by simp)
    rw [hvis]
    simp [Arbiter.gtAt_releaseAll]

/-! ## `MDISC` -/

section
variable {s : State} {h : Handle}

theorem exec_mdisc_badHandle (hu : s.ma.usedAt h.toNat = false) :
    exec (.mdisc h) s = .next (s.respondStatus .badHandle) := by
  simp [exec, execMdisc, Arbiter.validHandle_eq_usedAt, hu]

theorem exec_mdisc_backstop (hu : s.ma.usedAt h.toNat = true) (hb : s.ma.isBackstop h = true) :
    exec (.mdisc h) s = .next (s.respondStatus .backstop) := by
  simp [exec, execMdisc, Arbiter.validHandle_eq_usedAt, hu, hb]

theorem exec_mdisc_ok (hu : s.ma.usedAt h.toNat = true) (hb : s.ma.isBackstop h = false) :
    exec (.mdisc h) s =
      .next (State.respondStatus { s with ma := (s.ma.releaseAll h).setSlot h.toNat false 0#16 } .ok) := by
  simp [exec, execMdisc, Arbiter.validHandle_eq_usedAt, hu, hb]

end

/-- Settles O40: the two failing answers in the order of their checks; otherwise the loops release every page of both
directions, and the write of `SLOT` after them frees the one slot. -/
theorem mdiscResult : Obligations.MdiscResult := by
  intro h s
  refine ⟨fun hbad => exec_mdisc_badHandle (Arbiter.usedAt_eq_false_of_invalid hbad),
    fun hu hlast => exec_mdisc_backstop hu ((s.ma.isBackstop_iff h).2 hlast), fun hu hlt => ?_⟩
  have hslot := s.ma.lt_of_usedAt _ hu
  refine ⟨_, exec_mdisc_ok hu (Arbiter.isBackstop_eq_false hlt), s.ma.releasedOn_releaseAll_setSlot h false 0#16,
    ?_, ?_, fun t ht => ?_⟩
  · simp [Arbiter.usedAt_setSlot, Arbiter.releaseAll_eq, hslot]
  · simp [Arbiter.devAt_setSlot, Arbiter.releaseAll_eq, hslot]
  · simp [Arbiter.usedAt_setSlot, Arbiter.devAt_setSlot, Arbiter.releaseAll_eq, ht]

/-! ## `MREL` -/

section
variable {s : State} {h : Handle} {addr : Address} {len : BitVec 24} (d : Dir)

theorem exec_mrel_badHandle (hu : s.ma.usedAt h.toNat = false) :
    exec (.mrel h d addr len) s = .next (s.respondStatus .badHandle) := by
  simp [exec, execMrel, Arbiter.validHandle_eq_usedAt, hu]

theorem exec_mrel_badArg (hu : s.ma.usedAt h.toNat = true) (ha : argCheck addr len = false) :
    exec (.mrel h d addr len) s = .next (s.respondStatus .badArg) := by
  simp [exec, execMrel, Arbiter.validHandle_eq_usedAt, hu, ha]

theorem exec_mrel_backstop (hu : s.ma.usedAt h.toNat = true) (ha : argCheck addr len = true)
    (hb : s.ma.isBackstop h = true) : exec (.mrel h d addr len) s = .next (s.respondStatus .backstop) := by
  simp [exec, execMrel, Arbiter.validHandle_eq_usedAt, hu, ha, hb]

theorem exec_mrel_ok (hu : s.ma.usedAt h.toNat = true) (ha : argCheck addr len = true)
    (hb : s.ma.isBackstop h = false) :
    exec (.mrel h d addr len) s =
      .next (State.respondStatus { s with ma := s.ma.releasePages h d (cover addr len) } .ok) := by
  simp [exec, execMrel, Arbiter.validHandle_eq_usedAt, hu, ha, hb, Arbiter.releaseRange_eq]

end

/-- Settles O42: the three failing answers in the order of their checks; otherwise the loop of `MREL` releases the covered
pages and writes no slot. -/
theorem mrelResult : Obligations.MrelResult := by
  intro h d addr len s
  refine ⟨fun hbad => exec_mrel_badHandle d (Arbiter.usedAt_eq_false_of_invalid hbad),
    fun _ hu hbad => exec_mrel_badArg d hu (argCheck_eq_false hbad),
    fun hu hend hlast => exec_mrel_backstop d hu (argCheck_of_end_le hend) ((s.ma.isBackstop_iff h).2 hlast),
    fun hu hend hlt => ?_⟩
  exact ⟨_, exec_mrel_ok d hu (argCheck_of_end_le hend) (Arbiter.isBackstop_eq_false hlt),
    s.ma.releasedOn_releasePages h d (cover addr len), by simp⟩

end Sys2Proof.Machine
end

section
/-! PROOF. What hardware reset leaves, and what power-up holds (70_reset_and_hazards R130, R131). -/

namespace Sys2Proof.Machine

/-! ## The commands and the input that reset -/

theorem exec_frst (s : State) : exec .frst s = .next (s.resetFlags.respondStatus .ok) := rfl

theorem exec_minit (s : State) : exec .minit s = .next (s.resetArbiter.respondStatus .ok) := rfl

theorem runCommands_frst_minit (s : State) :
    runCommands [.frst, .minit] s =
      .next ((s.resetFlags.respondStatus .ok).resetArbiter.respondStatus .ok) := by
  simp only [runCommands, exec_frst, exec_minit]

/-- A step on hardware reset takes it from the port and resets both units. -/
theorem step_of_hardReset {s : State} {rest : List Input} (hport : s.port = .hardReset :: rest) :
    step s = .next (s.withPort rest).hardReset := by
  simp only [step, fetch, hport]

/-- Settles O11: hardware reset is the reset of both units, which the two commands carry out one after the other; the
responses between them touch neither unit. -/
theorem hardResetIsFrstThenMinit : Obligations.HardResetIsFrstThenMinit := by
  intro s rest hport
  refine ⟨_, _, runCommands_frst_minit _, step_of_hardReset hport, ?_, ?_⟩
  · rw [State.hardReset_fe, State.respondStatus_fe, State.resetArbiter_fe, State.respondStatus_fe, State.resetFlags_fe]
    rfl
  · rw [State.hardReset_ma, State.respondStatus_ma, State.resetArbiter_ma, State.resetArbiter_ma]
    rfl

/-! ## Power-up -/

/-- Settles O14: power-up holds the reset values of the Flag Evaluator by definition, and the arbiter's reset tables. -/
theorem resetTable : Obligations.ResetTable := by
  refine ⟨rfl, fun c n => ⟨rfl, Arbiter.nslot_reset n, Arbiter.usedAt_reset n, fun t ht => ?_, Arbiter.gtAt_reset n,
    Arbiter.lvAt_reset n, fun d p t => Arbiter.ptAt_reset n t d p⟩⟩
  rw [State.powerUp, Arbiter.devAt_reset, if_pos ht]

end Sys2Proof.Machine
end

section
/-! PROOF. What a command that completes has done, said once for the twelve commands: the frames and the whole-machine
properties go through `exec_completes` (30_encoding section 5, 60_exceptions section 1). -/

namespace Sys2Proof.Machine

/-! ## What a command makes of each unit -/

/-- The Flag Evaluator after a command (40_flag_evaluator R69 to R72, R74); `exec_completes` ties it to the machine. -/
def FlagEvaluator.after (fe : FlagEvaluator) (fReset : Byte) (i : Instr) : FlagEvaluator :=
  match i with
  | .frst => FlagEvaluator.reset fReset
  | .frec mask wide sub x y => fe.record mask wide sub x y
  | .fget mask => fe.resolve mask
  | .fset mask value => fe.writeFlags mask value
  | _ => fe

/-- The tables that a table command or `MPAGE` leaves when it is answered `OK`, with the checks it has passed
(41_memory_arbiter R95 to R99, R104). -/
inductive Arbiter.Becomes (m : Arbiter) : Instr → Arbiter → Prop
  | minit : m.Becomes .minit (Arbiter.reset m.nslot)
  | mconn {high : Bool} {dev : DeviceId} {k : Nat} (hlt : k < m.nslot) (hfree : m.usedAt k = false) :
      m.Becomes (.mconn high dev) (m.setSlot k true dev)
  | mdisc {h : Handle} (hu : m.usedAt h.toNat = true) (hb : m.isBackstop h = false) :
      m.Becomes (.mdisc h) ((m.releaseAll h).setSlot h.toNat false 0#16)
  | malloc {h : Handle} {iscb : Bool} {d : Dir} {addr : Address} {len : BitVec 24} {target stride : Pointer}
      (hu : m.usedAt h.toNat = true) :
      m.Becomes (.malloc h iscb d addr len target stride)
        (m.allocPages h.toNat d (grantEntry h iscb addr target stride) (cover addr len))
  | mrel {h : Handle} {d : Dir} {addr : Address} {len : BitVec 24} (hu : m.usedAt h.toNat = true)
      (hb : m.isBackstop h = false) : m.Becomes (.mrel h d addr len) (m.releasePages h d (cover addr len))
  | mpage {d : Dir} {addr : Address} : m.Becomes (.mpage d addr) m

/-- How a command can complete, from the state `s`: a Flag Evaluator command, a failed table command, a table command or
`MPAGE` answered `OK`, and the two byte accesses with their one transaction `e`. -/
inductive Completes (s : State) : Instr → State → Prop
  | flags {i : Instr} (hflag : isFlagCommand i = true) (val : Pointer) :
      Completes s i (State.respond { s with fe := s.fe.after s.cfg.fReset i } .ok 0#8 false val)
  | failed {i : Instr} {st : Status} (hflag : isFlagCommand i = false) (haccess : isByteAccess i = false)
      (hst : st ≠ .ok) (aux : Handle) : Completes s i (s.respond st aux false 0#32)
  | tables {i : Instr} {m : Arbiter} (hflag : isFlagCommand i = false) (haccess : isByteAccess i = false)
      (hm : s.ma.Becomes i m) (aux : Handle) (iscb : Bool) (val : Pointer) :
      Completes s i (State.respond { s with ma := m } .ok aux iscb val)
  | read {a : Address} (devIn : List Byte) (draws : Nat) (e : Event) (val : Pointer) :
      Completes s (.mread8 a)
        (State.respond { s with devIn := devIn, draws := draws, trace := s.trace ++ [e] } .ok 0#8 false val)
  | write {a : Address} {v : Byte} {bs : Memory} (e : Event)
      (hbs : (s.ma.resolve .w a).kind = .ptr ∧ bs = (s.bsWrite (pointerOf (s.ma.resolve .w a) a) v).bs ∨
        (s.ma.resolve .w a).kind ≠ .ptr ∧ bs = s.bs) :
      Completes s (.mwrite8 a v) (State.respondStatus { s with bs := bs, trace := s.trace ++ [e] } .ok)

/-! ## Each command completes in one of these ways -/

theorem exec_fget (mask : Byte) (s : State) :
    exec (.fget mask) s = .next (State.respond { s with fe := s.fe.resolve mask } .ok 0#8 false
      (((s.fe.resolve mask).f &&& mask).setWidth 32)) := rfl

theorem exec_mpage (d : Dir) (a : Address) (s : State) :
    exec (.mpage d a) s =
      .next (s.respond .ok (s.ma.resolve d a).owner (s.ma.resolve d a).iscb (s.ma.resolve d a).target) := rfl

section
variable {s : State}

theorem completes_minit : Completes s .minit (s.resetArbiter.respondStatus .ok) :=
  .tables (m := s.resetArbiter.ma) rfl rfl (s.resetArbiter_ma ▸ .minit) 0#8 false 0#32

/-- A table command that fails with a status alone. -/
theorem completes_respondStatus {i : Instr} {st : Status} (hflag : isFlagCommand i = false)
    (haccess : isByteAccess i = false) (hst : st ≠ .ok) : Completes s i (s.respondStatus st) :=
  .failed hflag haccess hst 0#8

theorem exec_mconn_completes (high : Bool) (dev : DeviceId) :
    ∃ t, exec (.mconn high dev) s = .next t ∧ Completes s (.mconn high dev) t := by
  cases hk : s.ma.chooseSlot high with
  | none => exact ⟨_, exec_mconn_of_no_slot dev hk, .failed rfl rfl (by decide) _⟩
  | some k =>
    obtain ⟨hlt, hfree, -⟩ := s.ma.chooseSlot_eq_some high k hk
    exact ⟨_, exec_mconn_of_slot dev hk, .tables rfl rfl (.mconn hlt hfree) _ _ _⟩

theorem exec_mdisc_completes (h : Handle) : ∃ t, exec (.mdisc h) s = .next t ∧ Completes s (.mdisc h) t := by
  cases hu : s.ma.usedAt h.toNat with
  | false => exact ⟨_, exec_mdisc_badHandle hu, completes_respondStatus rfl rfl (by decide)⟩
  | true =>
    cases hb : s.ma.isBackstop h with
    | true => exact ⟨_, exec_mdisc_backstop hu hb, completes_respondStatus rfl rfl (by decide)⟩
    | false => exact ⟨_, exec_mdisc_ok hu hb, .tables rfl rfl (.mdisc hu hb) _ _ _⟩

theorem exec_malloc_completes (h : Handle) (iscb : Bool) (d : Dir) (addr : Address) (len : BitVec 24)
    (target stride : Pointer) :
    ∃ t, exec (.malloc h iscb d addr len target stride) s = .next t ∧
      Completes s (.malloc h iscb d addr len target stride) t := by
  cases hu : s.ma.usedAt h.toNat with
  | false => exact ⟨_, exec_malloc_badHandle iscb target stride hu, completes_respondStatus rfl rfl (by decide)⟩
  | true =>
    cases ha : argCheck addr len with
    | false => exact ⟨_, exec_malloc_badArg iscb target stride hu ha, completes_respondStatus rfl rfl (by decide)⟩
    | true => exact ⟨_, exec_malloc_ok iscb target stride hu ha, .tables rfl rfl (.malloc hu) _ _ _⟩

theorem exec_mrel_completes (h : Handle) (d : Dir) (addr : Address) (len : BitVec 24) :
    ∃ t, exec (.mrel h d addr len) s = .next t ∧ Completes s (.mrel h d addr len) t := by
  cases hu : s.ma.usedAt h.toNat with
  | false => exact ⟨_, exec_mrel_badHandle d hu, completes_respondStatus rfl rfl (by decide)⟩
  | true =>
    cases ha : argCheck addr len with
    | false => exact ⟨_, exec_mrel_badArg d hu ha, completes_respondStatus rfl rfl (by decide)⟩
    | true =>
      cases hb : s.ma.isBackstop h with
      | true => exact ⟨_, exec_mrel_backstop d hu ha hb, completes_respondStatus rfl rfl (by decide)⟩
      | false => exact ⟨_, exec_mrel_ok d hu ha hb, .tables rfl rfl (.mrel hu hb) _ _ _⟩

/-- A command that is no byte access always completes. -/
theorem exec_completes_of_not_access {i : Instr} (haccess : isByteAccess i = false) :
    ∃ t, exec i s = .next t ∧ Completes s i t := by
  cases i with
  | frst => exact ⟨_, exec_frst s, .flags rfl 0#32⟩
  | frec mask wide sub x y => exact ⟨_, rfl, .flags rfl 0#32⟩
  | fget mask => exact ⟨_, exec_fget mask s, .flags rfl _⟩
  | fset mask value => exact ⟨_, rfl, .flags rfl 0#32⟩
  | minit => exact ⟨_, exec_minit s, completes_minit⟩
  | mconn high dev => exact exec_mconn_completes high dev
  | mdisc h => exact exec_mdisc_completes h
  | malloc h iscb d addr len target stride => exact exec_malloc_completes h iscb d addr len target stride
  | mrel h d addr len => exact exec_mrel_completes h d addr len
  | mread8 a => cases haccess
  | mwrite8 a v => cases haccess
  | mpage d a => exact ⟨_, exec_mpage d a s, .tables rfl rfl .mpage _ _ _⟩

/-- Taking a device's answer changes the answers still to come and nothing else. -/
theorem State.dropDevAnswer_eq (s : State) :
    s.dropDevAnswer = { s with devIn := s.dropDevAnswer.devIn, draws := s.dropDevAnswer.draws } := by
  unfold State.dropDevAnswer
  split <;> rfl

/-- `MREAD8` completes with the one transaction of its path, or ends in the fault (20_memory R36). -/
theorem exec_mread8_cases (a : Address) :
    (∃ t, exec (.mread8 a) s = .next t ∧ Completes s (.mread8 a) t) ∨
    ((s.ma.resolve .r a).kind = .cb ∧ s.ma.nslot ≤ (s.ma.resolve .r a).owner.toNat ∧
      exec (.mread8 a) s = .fault (.ownerNotASlot (s.ma.resolve .r a).owner)) := by
  rcases memRead_cases s a with ⟨p, -, -, hread⟩ | ⟨dev, -, -, hread⟩ | ⟨hk, howner, hread⟩ | ⟨-, hread⟩
  · exact .inl ⟨_, exec_mread8_of_memRead hread, .read _ _ _ _⟩
  · rw [State.dropDevAnswer_eq] at hread
    exact .inl ⟨_, exec_mread8_of_memRead hread, .read _ _ _ _⟩
  · exact .inr ⟨hk, howner, by simp only [exec, execMread8, hread]⟩
  · exact .inl ⟨_, exec_mread8_of_memRead hread, .read _ _ _ _⟩

/-- `MWRITE8` completes with the one transaction of its path, or ends in the fault (20_memory R37). -/
theorem exec_mwrite8_cases (a : Address) (v : Byte) :
    (∃ t, exec (.mwrite8 a v) s = .next t ∧ Completes s (.mwrite8 a v) t) ∨
    ((s.ma.resolve .w a).kind = .cb ∧ s.ma.nslot ≤ (s.ma.resolve .w a).owner.toNat ∧
      exec (.mwrite8 a v) s = .fault (.ownerNotASlot (s.ma.resolve .w a).owner)) := by
  rcases memWrite_cases s a v with ⟨p, hk, rfl, hwrite⟩ | ⟨dev, hk, -, hwrite⟩ | ⟨hk, howner, hwrite⟩ | ⟨hk, hwrite⟩
  · exact .inl ⟨_, exec_mwrite8_of_memWrite hwrite, .write _ (.inl ⟨hk, rfl⟩)⟩
  · exact .inl ⟨_, exec_mwrite8_of_memWrite hwrite, .write _ (.inr ⟨by simp [hk], rfl⟩)⟩
  · exact .inr ⟨hk, howner, by simp only [exec, execMwrite8, hwrite]⟩
  · exact .inl ⟨_, exec_mwrite8_of_memWrite hwrite, .write _ (.inr ⟨by simp [hk], rfl⟩)⟩

/-- The inversion of `exec`: a command that completes has done one of the five things. -/
theorem exec_completes {i : Instr} {t : State} (h : exec i s = .next t) : Completes s i t := by
  have hsome : ∃ u, exec i s = .next u ∧ Completes s i u := by
    cases haccess : isByteAccess i with
    | false => exact exec_completes_of_not_access haccess
    | true =>
      cases i with
      | mread8 a => exact (exec_mread8_cases a).resolve_right fun ⟨_, _, hf⟩ => by simp [h] at hf
      | mwrite8 a v => exact (exec_mwrite8_cases a v).resolve_right fun ⟨_, _, hf⟩ => by simp [h] at hf
      | _ => cases haccess
  obtain ⟨u, hu, hc⟩ := hsome
  rw [h] at hu
  cases hu
  exact hc

end

/-- An index that is no slot has no device. -/
theorem Arbiter.devAt_of_ge {m : Arbiter} {t : Nat} (h : m.nslot ≤ t) : m.devAt t = none := by
  rw [Arbiter.devAt, List.getElem?_eq_none h, Option.map_none]

/-- Settles O46: the callback path needs the device behind the owner, and an index that is no slot has none. -/
theorem callbackWithoutSlotFaults : Obligations.CallbackWithoutSlotFaults := by
  intro a v s
  refine ⟨fun hk howner => ?_, fun hk howner => ?_⟩
  · simp only [exec, execMread8, memRead, hk, Arbiter.devAt_of_ge howner]
  · simp only [exec, execMwrite8, memWrite, hk, Arbiter.devAt_of_ge howner]

/-! ## The frames -/

/-- Settles O34: of the ways to complete, a Flag Evaluator command has the one that writes its unit alone. -/
theorem flagCommandFrame : Obligations.FlagCommandFrame := by
  intro i s t hflag h
  cases exec_completes h with
  | flags _ val => exact ⟨rfl, rfl, fun _ => rfl, rfl, rfl, rfl, rfl, rfl⟩
  | failed hno | tables hno => simp [hflag] at hno
  | read | write => cases hflag

/-- Settles O35: a table command or `MPAGE` fails and changes nothing, or writes the tables alone, and `MPAGE`'s tables are
the old ones. -/
theorem tableCommandFrame : Obligations.TableCommandFrame := by
  intro i s t hflag haccess h
  cases exec_completes h with
  | flags hyes => simp [hflag] at hyes
  | failed => exact ⟨rfl, rfl, fun _ => rfl, rfl, rfl, rfl, rfl, rfl, fun _ _ _ => rfl⟩
  | tables _ _ hm =>
    refine ⟨rfl, rfl, fun _ => rfl, rfl, rfl, rfl, rfl, rfl, fun d a hi => ?_⟩
    subst hi
    cases hm
    rfl
  | read | write => cases haccess

/-- Settles O36: `MREAD8` changes only what the device has answered, and `MWRITE8` writes the byte at the pointer of a raw
entry, or nothing. -/
theorem byteAccessFrame : Obligations.ByteAccessFrame := by
  intro a v s t
  refine ⟨fun h => ?_, fun h => ?_⟩
  · cases exec_completes h with
    | flags hno => cases hno
    | failed _ hno | tables _ hno => cases hno
    | read => exact ⟨rfl, rfl, rfl, rfl, rfl, fun _ => rfl⟩
  · cases exec_completes h with
    | flags hno => cases hno
    | failed _ hno | tables _ hno => cases hno
    | write e hbs =>
      rcases hbs with ⟨hk, rfl⟩ | ⟨hk, rfl⟩
      · refine ⟨rfl, rfl, rfl, rfl, rfl, rfl, rfl, fun _ p hp => ?_, fun hno => absurd hk hno⟩
        exact (State.bsRead_bsWrite s _ p v).trans (if_neg hp)
      · exact ⟨rfl, rfl, rfl, rfl, rfl, rfl, rfl, fun _ _ _ => rfl, fun _ _ => rfl⟩

/-! ## Responses and transactions -/

/-- Settles O53: every way to complete ends in one response. -/
theorem everyCommandDrivesOneResponse : Obligations.EveryCommandDrivesOneResponse := by
  intro i s t h
  cases exec_completes h with
  | flags | failed | tables | read | write => exact ⟨_, rfl⟩

/-- No Flag Evaluator command accesses a byte. -/
theorem isByteAccess_of_isFlagCommand {i : Instr} (hflag : isFlagCommand i = true) : isByteAccess i = false := by
  cases i with
  | mread8 | mwrite8 => cases hflag
  | _ => rfl

/-- Settles O55: the two byte accesses emit the one event of their path, and no other way to complete emits any. -/
theorem oneTransactionPerAccess : Obligations.OneTransactionPerAccess := by
  intro i s t h
  cases exec_completes h with
  | flags hflag => exact ⟨fun hyes => by simp [isByteAccess_of_isFlagCommand hflag] at hyes, fun _ => rfl⟩
  | failed _ hno | tables _ hno => exact ⟨fun hyes => by simp [hno] at hyes, fun _ => rfl⟩
  | read | write => exact ⟨fun _ => ⟨_, rfl⟩, nofun⟩

/-! ## The response word (30_encoding R57) -/

/-- Settles O6: each field is one part of the concatenation that the response word is. -/
theorem responseWordFields : Obligations.ResponseWordFields := by
  intro st aux iscb val
  refine ⟨?_, ?_, ?_, ?_, rspVal_responseWord st aux iscb val⟩ <;>
    simp only [rspStatus, rspIscb, rspAux, responseWord]
  · refine extract_append_high _ _ _ (by decide) ?_
    refine extract_append_high _ _ _ (by decide) ?_
    refine extract_append_high _ _ _ (by decide) ?_
    exact extract_append_high _ _ _ (by decide) BitVec.extractLsb'_eq_self
  · refine extract_append_high _ _ _ (by decide) ?_
    refine extract_append_high _ _ _ (by decide) ?_
    refine extract_append_high _ _ _ (by decide) ?_
    exact extract_append_low _ _ _ (by decide) BitVec.extractLsb'_eq_self
  · refine extract_append_high _ _ _ (by decide) ?_
    refine extract_append_high _ _ _ (by decide) ?_
    exact extract_append_low _ _ _ (by decide) BitVec.extractLsb'_eq_self
  · refine extract_append_high _ _ _ (by decide) ?_
    exact extract_append_low _ _ _ (by decide) BitVec.extractLsb'_eq_self

/-- `ST` of a response word is the status it was built from (30_encoding R57). -/
theorem rspStatus_responseWord (st : Status) (aux : Handle) (iscb : Bool) (val : Pointer) :
    rspStatus (responseWord st aux iscb val) = st.code := (responseWordFields st aux iscb val).1

/-- Settles O54: a command that completes otherwise than by failing ends in one response, and its status is OK. -/
theorem failedCommandChangesNothing : Obligations.FailedCommandChangesNothing := by
  intro i s t w h hw hst
  have hok : ∀ aux iscb val, t.rsps = s.rsps ++ [responseWord .ok aux iscb val] → False := fun aux iscb val hr => by
    obtain rfl : w = responseWord .ok aux iscb val := by simpa using hw.symm.trans hr
    exact hst (rspStatus_responseWord .ok aux iscb val)
  cases exec_completes h with
  | flags | tables | read | write => exact (hok _ _ _ rfl).elim
  | failed _ _ hne aux =>
    obtain rfl : w = responseWord _ aux false 0#32 := by simpa using hw.symm
    rfl

end Sys2Proof.Machine
end

section
/-! PROOF. The lazily kept flags are the eager machine's: resolving keeps every flag value, the flags of scaled operands,
the frame of a flag value, and the guarantee over command sequences (40_flag_evaluator sections 1 to 4). -/

namespace Sys2Proof.Machine

/-- Settles O23: only the two bits at `k` are written, and what is written is the value the flag had. -/
theorem resolveBitKeepsFlagValues : Obligations.ResolveBitKeepsFlagValues := by
  intro fe k hdirty
  have hf : ∀ j : Fin 8, (fe.resolveBit k).f.getLsbD j.val = if j = k then fe.recompute k else fe.f.getLsbD j.val :=
    fun j => getLsbD_putBit _ _ _ _
  have hdm : ∀ j : Fin 8, (fe.resolveBit k).dm.getLsbD j.val = if j = k then false else fe.dm.getLsbD j.val :=
    fun j => getLsbD_putBit _ _ _ _
  refine ⟨(hf k).trans (if_pos rfl), (hdm k).trans (if_pos rfl),
    fun j hj => ⟨(hf j).trans (if_neg hj), (hdm j).trans (if_neg hj)⟩, rfl, rfl, rfl, rfl, fun j => ?_⟩
  rw [FlagEvaluator.flagVal, FlagEvaluator.flagVal, hf, hdm, FlagEvaluator.recompute_resolveBit]
  by_cases hj : j = k
  · subst hj
    simp only [hdirty, if_true, Bool.false_eq_true, if_false]
  · simp only [if_neg hj]

/-- Settles O21: the flags of a recorded addition, at `W` = 8 and `W` = 16. -/
theorem additionFlagsAreEager : Obligations.AdditionFlagsAreEager :=
  ⟨recomputeByte_scaled_add (v := 0) rfl, recomputeByte_scaled_add (v := 8) rfl⟩

/-- Settles O22: the flags of a recorded subtraction, at `W` = 8 and `W` = 16. -/
theorem subtractionFlagsAreEager : Obligations.SubtractionFlagsAreEager :=
  ⟨recomputeByte_scaled_sub (v := 0) rfl, recomputeByte_scaled_sub (v := 8) rfl⟩

/-! ## One command against the eager machine (40 R73) -/

/-- With no flag dirty the architectural flag byte is `F`. -/
theorem FlagEvaluator.flagValByte_reset (fReset : Byte) : (FlagEvaluator.reset fReset).flagValByte = fReset := by
  refine byte_ext _ _ fun j => ?_
  rw [getLsbD_flagValByte, flagVal]
  simp [FlagEvaluator.reset]

/-- A resolve keeps the architectural flag byte (40 R68). -/
theorem FlagEvaluator.flagValByte_resolve (fe : FlagEvaluator) (mask : Byte) :
    (fe.resolve mask).flagValByte = fe.flagValByte := by
  refine byte_ext _ _ fun j => ?_
  rw [getLsbD_flagValByte, getLsbD_flagValByte, flagVal_resolve]

/-- The commuting square: the architectural flag byte after a command is the eager register after it. -/
theorem FlagEvaluator.flagValByte_after (fe : FlagEvaluator) (fReset : Byte) (i : Instr) :
    (fe.after fReset i).flagValByte = eagerNext fReset fe.flagValByte i := by
  cases i with
  | frst => exact FlagEvaluator.flagValByte_reset fReset
  | frec mask wide sub x y => exact fe.flagValByte_record mask wide sub x y
  | fget mask => exact fe.flagValByte_resolve mask
  | fset mask value => exact fe.flagValByte_writeFlags mask value
  | _ => rfl

/-- A command that is none of the Flag Evaluator's leaves it (40 R74). -/
theorem FlagEvaluator.after_of_not_flag (fe : FlagEvaluator) (fReset : Byte) {i : Instr}
    (hflag : isFlagCommand i = false) : fe.after fReset i = fe := by
  cases i with
  | frst | frec | fget | fset => cases hflag
  | _ => rfl

/-- The Flag Evaluator after any command that completes. -/
theorem exec_fe {i : Instr} {s t : State} (h : exec i s = .next t) : t.fe = s.fe.after s.cfg.fReset i := by
  cases exec_completes h with
  | flags | read | write => rfl
  | failed hflag | tables hflag => exact (s.fe.after_of_not_flag _ hflag).symm

/-- No command changes the parameters (10_state R28). -/
theorem exec_cfg {i : Instr} {s t : State} (h : exec i s = .next t) : t.cfg = s.cfg := by
  cases exec_completes h with
  | flags | failed | tables | read | write => rfl

/-- A merge keeps the old byte's bits outside the mask. -/
theorem getLsbD_mergeBits_of_unmasked (old new : Byte) {mask : Byte} {k : Fin 8} (hm : mask.getLsbD k.val = false) :
    (mergeBits old mask new).getLsbD k.val = old.getLsbD k.val := by
  rw [getLsbD_mergeBits, hm, if_neg Bool.false_ne_true]

/-- Settles O26: the flag's bit of the commuting square; the eager machine changes it only by the three commands. -/
theorem flagValueFrame : Obligations.FlagValueFrame := by
  intro i s t k h hfrst hfrec hfset
  rw [← FlagEvaluator.getLsbD_flagValByte, ← FlagEvaluator.getLsbD_flagValByte, exec_fe h,
    FlagEvaluator.flagValByte_after]
  cases i with
  | frst => exact absurd rfl hfrst
  | frec mask wide sub x y => exact getLsbD_mergeBits_of_unmasked _ _ (hfrec mask wide sub x y rfl)
  | fset mask value => exact getLsbD_mergeBits_of_unmasked _ _ (hfset mask value rfl)
  | _ => rfl

/-! ## Command sequences (40 section 3) -/

/-- A run of commands that completes is its first command and a run of the others. -/
theorem runCommands_cons_eq_next {i : Instr} {l : List Instr} {s t : State} (h : runCommands (i :: l) s = .next t) :
    ∃ u, exec i s = .next u ∧ runCommands l u = .next t := by
  rw [runCommands] at h
  split at h
  · next u hu => exact ⟨u, hu, h⟩
  · cases h
  · cases h

/-- Settles O24, by induction on the commands: each is one commuting square, and the parameter `F_RESET` of the later ones is
that of the first. -/
theorem lazyFlagsAreEagerFlags : Obligations.LazyFlagsAreEagerFlags := by
  intro l
  induction l with
  | nil =>
    intro s t h
    cases h
    rfl
  | cons i l ih =>
    intro s t h
    obtain ⟨u, hi, hl⟩ := runCommands_cons_eq_next h
    rw [List.foldl_cons, ← FlagEvaluator.flagValByte_after, ← exec_fe hi, ← exec_cfg hi]
    exact ih u t hl

/-- Settles O25: power-up holds `F_RESET` with no flag dirty, so the guarantee starts from `F_RESET`, and `FGET` answers the
architectural flags under its mask. -/
theorem lazyAnswerIsEagerAnswer : Obligations.LazyAnswerIsEagerAnswer := by
  intro l mask c n t h
  have hflags : t.fe.flagValByte = l.foldl (eagerNext c.fReset) c.fReset :=
    (lazyFlagsAreEagerFlags l _ t h).trans
      (congrArg (l.foldl (eagerNext c.fReset)) (FlagEvaluator.flagValByte_reset c.fReset))
  refine ⟨_, exec_fget mask t, ?_⟩
  rw [State.respond_rsps, FlagEvaluator.resolve_f_and_mask, hflags]

/-- Settles O18: under its mask `FGET` answers the architectural flag byte. -/
theorem fgetAnswersFlagVal : Obligations.FgetAnswersFlagVal := by
  intro mask s
  refine ⟨_, _, exec_fget mask s, State.respond_rsps _ _ _ _ _, fun k => ?_⟩
  have hk : k.val < 32 := by omega
  rw [rspVal_responseWord, FlagEvaluator.resolve_f_and_mask, BitVec.getLsbD_setWidth, BitVec.getLsbD_and,
    FlagEvaluator.getLsbD_flagValByte]
  simp [hk, Bool.and_comm]

end Sys2Proof.Machine
end

section
/-! PROOF. The decoder, the encoder, the opcode table and the assembler's command lines agree (30_encoding sections 1 to 4
and 6). -/

namespace Sys2Proof

/-! ## Reading a one-bit field back -/

theorem bitField_of_field {cw : CommandWord} {k : Nat} {b : Bool} (h : field cw k 1 = BitVec.ofBool b) :
    bitField cw k = b := by
  rw [bitField, h]
  cases b <;> rfl

theorem dirField_of_field {cw : CommandWord} {d : Dir} (h : field cw 104 1 = dirBit d) : dirField cw = d := by
  rw [dirField, bitField, h]
  cases d <;> rfl

theorem ofBool_bitField (cw : CommandWord) (k : Nat) : BitVec.ofBool (bitField cw k) = field cw k 1 := by
  rw [bitField]
  generalize field cw k 1 = v
  revert v
  decide

theorem dirBit_dirField (cw : CommandWord) : dirBit (dirField cw) = field cw 104 1 := by
  rw [dirField, bitField]
  generalize field cw 104 1 = v
  revert v
  decide

/-- Settles O2: the decoder reads each field of the encoded word back, and its reserved fields are zero. -/
theorem decodeOfEncode : Obligations.DecodeOfEncode := by
  intro i
  cases i with
  | frst => decide
  | frec mask wide sub x y =>
    obtain ⟨hop, hmask, hr1, hwide, hsub, hr2, hx, hr3, hy⟩ := field_encode_frec mask wide sub x y
    simp [decode, checked, zeroField, hop, hmask, hr1, bitField_of_field hwide, bitField_of_field hsub, hr2, hx, hr3, hy]
  | fget mask =>
    obtain ⟨hop, hmask, hr⟩ := field_encode_fget mask
    simp [decode, checked, zeroField, hop, hmask, hr]
  | fset mask value =>
    obtain ⟨hop, hmask, hvalue, hr⟩ := field_encode_fset mask value
    simp [decode, checked, zeroField, hop, hmask, hvalue, hr]
  | minit => decide
  | mconn high dev =>
    obtain ⟨hop, hr1, hhigh, hdev, hr2⟩ := field_encode_mconn high dev
    simp [decode, checked, zeroField, hop, hr1, bitField_of_field hhigh, hdev, hr2]
  | mdisc h =>
    obtain ⟨hop, hh, hr⟩ := field_encode_mdisc h
    simp [decode, checked, zeroField, hop, hh, hr]
  | malloc h iscb d addr len target stride =>
    obtain ⟨hop, hh, hr, hcb, hd, haddr, hlen, htarget, hstride⟩ := field_encode_malloc h iscb d addr len target stride
    simp [decode, checked, zeroField, hop, hh, hr, bitField_of_field hcb, dirField_of_field hd, haddr, hlen, htarget,
      hstride]
  | mrel h d addr len =>
    obtain ⟨hop, hh, hr1, hd, haddr, hlen, hr2⟩ := field_encode_mrel h d addr len
    simp [decode, checked, zeroField, hop, hh, hr1, dirField_of_field hd, haddr, hlen, hr2]
  | mread8 addr =>
    obtain ⟨hop, hr1, haddr, hr2⟩ := field_encode_mread8 addr
    simp [decode, checked, zeroField, hop, hr1, haddr, hr2]
  | mwrite8 addr data =>
    obtain ⟨hop, hr1, haddr, hr2, hdata, hr3⟩ := field_encode_mwrite8 addr data
    simp [decode, checked, zeroField, hop, hr1, haddr, hr2, hdata, hr3]
  | mpage d addr =>
    obtain ⟨hop, hr1, hd, haddr, hr2⟩ := field_encode_mpage d addr
    simp [decode, checked, zeroField, hop, hr1, dirField_of_field hd, haddr, hr2]

/-! ## An accepted word is made of the fields that were read -/

/-- Two command words are equal where they agree on fields that together are the whole word. -/
theorem eq_of_fields (ranges : List (Nat × Nat)) {a b : CommandWord}
    (hall : ∀ k : Fin 128, ranges.any (fun r => decide (r.1 ≤ k.val) && decide (k.val < r.1 + r.2)) = true)
    (h : ∀ r ∈ ranges, field a r.1 r.2 = field b r.1 r.2) : a = b := by
  refine BitVec.eq_of_getLsbD_eq fun k hk => ?_
  obtain ⟨r, hr, hb⟩ := List.any_eq_true.1 (hall ⟨k, hk⟩)
  simp only [Bool.and_eq_true, decide_eq_true_eq] at hb
  exact (field_eq_iff a b r.1 r.2).1 (h r hr) k hb.1 hb.2

/-- One branch of the decoder: where the word has the branch's opcode and zeros in its reserved fields, the word of the
command read agrees with it on fields that together are the whole word. -/
theorem encode_eq_of_branch (ranges : List (Nat × Nat)) {op : Byte} {cw : CommandWord} {ok : Bool} {i j : Instr}
    {others : Except Reject Instr}
    (hall : ∀ k : Fin 128, ranges.any (fun r => decide (r.1 ≤ k.val) && decide (k.val < r.1 + r.2)) = true)
    (hfields : field cw 120 8 = op → ok = true → ∀ r ∈ ranges, field (encode i) r.1 r.2 = field cw r.1 r.2)
    (hothers : others = .ok j → encode j = cw)
    (h : (if field cw 120 8 = op then checked (field cw 120 8) ok i else others) = .ok j) : encode j = cw := by
  rcases ite_eq_iff.1 h with ⟨hop, hchecked⟩ | ⟨-, hother⟩
  · obtain ⟨hok, rfl⟩ := checked_eq_ok_iff.1 hchecked
    exact eq_of_fields ranges hall (hfields hop hok)
  · exact hothers hother

theorem field_encode_frst : field (encode .frst) 120 8 = 0x00#8 ∧ field (encode .frst) 0 120 = 0#120 := by decide

theorem field_encode_minit : field (encode .minit) 120 8 = 0x10#8 ∧ field (encode .minit) 0 120 = 0#120 := by decide

/-- Settles O3, by the decoder's branches in its order, each with the fields of its format. -/
theorem encodeOfDecode : Obligations.EncodeOfDecode := by
  intro cw i
  unfold decode
  refine encode_eq_of_branch [(120, 8), (0, 120)] (by decide) (fun hop hok => ?frst) ?_
  case frst => simp_all [zeroField, field_encode_frst]
  refine encode_eq_of_branch [(120, 8), (112, 8), (106, 6), (105, 1), (104, 1), (50, 54), (32, 18), (18, 14), (0, 18)]
    (by decide) (fun hop hok => ?frec) ?_
  case frec => simp_all [zeroField, field_encode_frec, ofBool_bitField]
  refine encode_eq_of_branch [(120, 8), (112, 8), (0, 112)] (by decide) (fun hop hok => ?fget) ?_
  case fget => simp_all [zeroField, field_encode_fget]
  refine encode_eq_of_branch [(120, 8), (112, 8), (104, 8), (0, 104)] (by decide) (fun hop hok => ?fset) ?_
  case fset => simp_all [zeroField, field_encode_fset]
  refine encode_eq_of_branch [(120, 8), (0, 120)] (by decide) (fun hop hok => ?minit) ?_
  case minit => simp_all [zeroField, field_encode_minit]
  refine encode_eq_of_branch [(120, 8), (105, 15), (104, 1), (88, 16), (0, 88)] (by decide) (fun hop hok => ?mconn) ?_
  case mconn => simp_all [zeroField, field_encode_mconn, ofBool_bitField]
  refine encode_eq_of_branch [(120, 8), (112, 8), (0, 112)] (by decide) (fun hop hok => ?mdisc) ?_
  case mdisc => simp_all [zeroField, field_encode_mdisc]
  refine encode_eq_of_branch [(120, 8), (112, 8), (106, 6), (105, 1), (104, 1), (88, 16), (64, 24), (32, 32), (0, 32)]
    (by decide) (fun hop hok => ?malloc) ?_
  case malloc => simp_all [zeroField, field_encode_malloc, ofBool_bitField, dirBit_dirField]
  refine encode_eq_of_branch [(120, 8), (112, 8), (105, 7), (104, 1), (88, 16), (64, 24), (0, 64)] (by decide)
    (fun hop hok => ?mrel) ?_
  case mrel => simp_all [zeroField, field_encode_mrel, dirBit_dirField]
  refine encode_eq_of_branch [(120, 8), (104, 16), (88, 16), (0, 88)] (by decide) (fun hop hok => ?mread8) ?_
  case mread8 => simp_all [zeroField, field_encode_mread8]
  refine encode_eq_of_branch [(120, 8), (104, 16), (88, 16), (72, 16), (64, 8), (0, 64)] (by decide)
    (fun hop hok => ?mwrite8) ?_
  case mwrite8 => simp_all [zeroField, field_encode_mwrite8]
  refine encode_eq_of_branch [(120, 8), (105, 15), (104, 1), (88, 16), (0, 88)] (by decide) (fun hop hok => ?mpage) ?_
  case mpage => simp_all [zeroField, field_encode_mpage, dirBit_dirField]
  exact nofun

/-! ## The rows of the opcode table (30_encoding R54) -/

/-- A word that matches a row of the opcode table has the row's opcode. -/
theorem TableRow.field_op_of_matches {row : TableRow} (hrow : row ∈ opcodeTable) {cw : CommandWord}
    (h : row.matches cw = true) : field cw 120 8 = field row.pattern 120 8 := by
  have hmask : ∀ row ∈ opcodeTable, field row.mask 120 8 = BitVec.allOnes 8 := by decide
  have hand : field (cw &&& row.mask) 120 8 = field cw 120 8 &&& field row.mask 120 8 := BitVec.extractLsb'_and
  rw [← beq_iff_eq.1 h, hand, hmask row hrow, BitVec.and_allOnes]

/-- No two rows of the opcode table have one opcode. -/
theorem opcodeTable_op_injective : ∀ row ∈ opcodeTable, ∀ row' ∈ opcodeTable,
    field row.pattern 120 8 = field row'.pattern 120 8 → row = row' := by decide

/-- At most one row of the opcode table matches a word. -/
theorem TableRow.eq_of_matches {row row' : TableRow} (hrow : row ∈ opcodeTable) (hrow' : row' ∈ opcodeTable)
    {cw : CommandWord} (h : row.matches cw = true) (h' : row'.matches cw = true) : row = row' :=
  opcodeTable_op_injective row hrow row' hrow'
    ((TableRow.field_op_of_matches hrow h).symm.trans (TableRow.field_op_of_matches hrow' h'))

/-- One row of the opcode table, by the format it stands for: a word that matches it is accepted where the decoder accepts
every word of that opcode with zeros in the reserved fields. -/
theorem exists_decode_ok_of_format {row : TableRow} {cw : CommandWord} (op : Byte) (reserved : List (Nat × Nat))
    (hformat : row.hasFormat op reserved = true) (h : row.matches cw = true)
    (haccept : field cw 120 8 = op → reserved.all (fun r => zeroField cw r.1 r.2) = true → ∃ i, decode cw = .ok i) :
    ∃ i, decode cw = .ok i := by
  obtain ⟨hop, hzero⟩ := (TableRow.matches_iff_of_hasFormat hformat cw).1 h
  exact haccept hop hzero

/-- A word that matches a row of the opcode table is accepted. The rows stand in the table's order. -/
theorem exists_decode_ok_of_row_matches {row : TableRow} (hrow : row ∈ opcodeTable) {cw : CommandWord}
    (h : row.matches cw = true) : ∃ i, decode cw = .ok i := by
  simp only [opcodeTable, List.mem_cons, List.not_mem_nil, or_false] at hrow
  rcases hrow with rfl | rfl | rfl | rfl | rfl | rfl | rfl | rfl | rfl | rfl | rfl | rfl
  · exact exists_decode_ok_of_format 0x00#8 [(0, 120)] (by decide) h fun hop hz => by
      simp_all [decode, checked]
  · exact exists_decode_ok_of_format 0x01#8 [(106, 6), (50, 54), (18, 14)] (by decide) h fun hop hz => by
      simp_all [decode, checked]
  · exact exists_decode_ok_of_format 0x02#8 [(0, 112)] (by decide) h fun hop hz => by
      simp_all [decode, checked]
  · exact exists_decode_ok_of_format 0x03#8 [(0, 104)] (by decide) h fun hop hz => by
      simp_all [decode, checked]
  · exact exists_decode_ok_of_format 0x10#8 [(0, 120)] (by decide) h fun hop hz => by
      simp_all [decode, checked]
  · exact exists_decode_ok_of_format 0x11#8 [(105, 15), (0, 88)] (by decide) h fun hop hz => by
      simp_all [decode, checked]
  · exact exists_decode_ok_of_format 0x12#8 [(0, 112)] (by decide) h fun hop hz => by
      simp_all [decode, checked]
  · exact exists_decode_ok_of_format 0x13#8 [(106, 6)] (by decide) h fun hop hz => by
      simp_all [decode, checked]
  · exact exists_decode_ok_of_format 0x14#8 [(105, 7), (0, 64)] (by decide) h fun hop hz => by
      simp_all [decode, checked]
  · exact exists_decode_ok_of_format 0x15#8 [(104, 16), (0, 88)] (by decide) h fun hop hz => by
      simp_all [decode, checked]
  · exact exists_decode_ok_of_format 0x16#8 [(104, 16), (72, 16), (0, 64)] (by decide) h fun hop hz => by
      simp_all [decode, checked]
  · exact exists_decode_ok_of_format 0x17#8 [(105, 15), (0, 88)] (by decide) h fun hop hz => by
      simp_all [decode, checked]

/-- The word of a command matches a row of its mnemonic. -/
theorem exists_row_matches_encode (i : Instr) : Laws.RowMatch.Statement i := by
  cases i with
  | frst => exact Laws.RowMatch.frst
  | frec mask wide sub x y => exact Laws.RowMatch.frec mask wide sub x y
  | fget mask => exact Laws.RowMatch.fget mask
  | fset mask value => exact Laws.RowMatch.fset mask value
  | minit => exact Laws.RowMatch.minit
  | mconn high dev => exact Laws.RowMatch.mconn high dev
  | mdisc h => exact Laws.RowMatch.mdisc h
  | malloc h iscb d addr len target stride => exact Laws.RowMatch.malloc h iscb d addr len target stride
  | mrel h d addr len => exact Laws.RowMatch.mrel h d addr len
  | mread8 addr => exact Laws.RowMatch.mread8 addr
  | mwrite8 addr data => exact Laws.RowMatch.mwrite8 addr data
  | mpage d addr => exact Laws.RowMatch.mpage d addr

/-- Settles O4: acceptance is a match of some row; the word is the word of the command read, which matches a row of that
command's mnemonic, and no other row matches it. -/
theorem decodeAcceptsExactlyTableRows : Obligations.DecodeAcceptsExactlyTableRows := by
  refine ⟨fun cw => ⟨fun ⟨_, hd⟩ => exists_row_matches_of_decode_ok hd,
    fun ⟨_, hrow, h⟩ => exists_decode_ok_of_row_matches hrow h⟩, fun cw i row hd hrow h => ?_,
    fun _ _ _ hrow hrow' h h' => TableRow.eq_of_matches hrow hrow' h h'⟩
  obtain ⟨row', hrow', hname, h'⟩ := exists_row_matches_encode i
  rw [encodeOfDecode cw i hd] at h'
  rw [TableRow.eq_of_matches hrow hrow' h h', hname]

/-! ## The assembler's command lines (30_encoding R59) -/

/-- The tag of an operation's width and kind (30_encoding R47). -/
def tagOf (wide sub : Bool) : Tag :=
  if wide then (if sub then .sub16 else .add16) else if sub then .sub8 else .add8

@[simp] theorem tagOf_wide_sub (t : Tag) : tagOf t.wide t.sub = t := by cases t <;> rfl

@[simp] theorem wide_tagOf (wide sub : Bool) : (tagOf wide sub).wide = wide := by cases wide <;> cases sub <;> rfl

@[simp] theorem sub_tagOf (wide sub : Bool) : (tagOf wide sub).sub = sub := by cases wide <;> cases sub <;> rfl

/-- The command line of a command: each field written as its number (30_encoding R59). -/
def lineOf (i : Instr) : AsmCommand :=
  match i with
  | .frst => .frst
  | .frec mask wide sub x y => .frec mask.toNat (tagOf wide sub) x.toNat y.toNat
  | .fget mask => .fget mask.toNat
  | .fset mask value => .fset mask.toNat value.toNat
  | .minit => .minit
  | .mconn high dev => .mconn dev.toNat high
  | .mdisc h => .mdisc h.toNat
  | .malloc h iscb dir addr len target stride =>
    .malloc h.toNat dir addr.toNat len.toNat iscb target.toNat stride.toNat
  | .mrel h dir addr len => .mrel h.toNat dir addr.toNat len.toNat
  | .mread8 addr => .mread8 addr.toNat
  | .mwrite8 addr data => .mwrite8 addr.toNat data.toNat
  | .mpage dir addr => .mpage dir addr.toNat

/-- The number of a field fits it. -/
@[simp] theorem fits_toNat {w : Nat} (v : BitVec w) : fits w v.toNat = true := by
  simp [fits, v.isLt]

theorem lineOf_wellFormed (i : Instr) : (lineOf i).WellFormed = true := by
  cases i <;> simp [lineOf, AsmCommand.WellFormed]

theorem toInstr_lineOf (i : Instr) : (lineOf i).toInstr = i := by
  cases i <;> simp [lineOf, AsmCommand.toInstr]

theorem lineOf_toInstr {a : AsmCommand} (h : a.WellFormed = true) : lineOf a.toInstr = a := by
  cases a <;> simp_all [lineOf, AsmCommand.toInstr, AsmCommand.WellFormed, fits]

/-- Settles O5: the numbers of the fields make a well-formed line, and a well-formed line is the one of its command. -/
theorem assemblerLineOfEveryCommand : Obligations.AssemblerLineOfEveryCommand := by
  refine ⟨fun i => ⟨lineOf i, lineOf_wellFormed i, toInstr_lineOf i⟩, fun a b ha hb hab => ?_⟩
  rw [← lineOf_toInstr ha, hab, lineOf_toInstr hb]

/-! ## The spec's words -/

/-- Settles O1: the decoder evaluates on each word. -/
theorem specWordsDecode : Obligations.SpecWordsDecode := by
  unfold Obligations.SpecWordsDecode
  decide

end Sys2Proof
end

section
/-! PROOF. The arbiter's invariants: what they say as one condition per slot and one about the global table, that every
operation of the tables keeps them, and that every step does (10_state section 3, 41_memory_arbiter section 3). -/

namespace Sys2Proof.Machine

/-! ## The entry that shows through (41_memory_arbiter R103) -/

/-- The first live slot shows its local view. -/
theorem Arbiter.visibleEntry_of_first {m : Arbiter} {d : Dir} {p : Page} {t : Nat} (hlive : m.ptAt d p t = true)
    (hlow : ∀ j, j < t → m.ptAt d p j = false) : m.visibleEntry d p = m.lvAt t d p := by
  rw [Arbiter.visibleEntry, (m.firstLive_eq_some_iff d p t).2 ⟨hlive, hlow⟩]

/-- With no slot live the undefined stub shows. -/
theorem Arbiter.visibleEntry_of_none {m : Arbiter} {d : Dir} {p : Page} (hdead : ∀ j, m.ptAt d p j = false) :
    m.visibleEntry d p = undefEntry := by
  rw [Arbiter.visibleEntry, (m.firstLive_eq_none_iff d p).2 hdead]

/-- On a page either no slot is live or one is the first live slot. -/
theorem Arbiter.dead_or_first (m : Arbiter) (d : Dir) (p : Page) :
    (∀ j, m.ptAt d p j = false) ∨ ∃ t, m.ptAt d p t = true ∧ ∀ j, j < t → m.ptAt d p j = false := by
  cases hf : m.firstLive d p with
  | none => exact .inl ((m.firstLive_eq_none_iff d p).1 hf)
  | some t => exact .inr ⟨t, (m.firstLive_eq_some_iff d p t).1 hf⟩

/-- Two arbiters that agree up to a slot live in one of them show the same entry. -/
theorem Arbiter.visibleEntry_congr_upto {m n : Arbiter} {d : Dir} {p : Page} {t : Nat} (hlive : m.ptAt d p t = true)
    (hpt : ∀ j, j ≤ t → n.ptAt d p j = m.ptAt d p j) (hlv : ∀ j, j ≤ t → n.lvAt j d p = m.lvAt j d p) :
    n.visibleEntry d p = m.visibleEntry d p := by
  rcases m.dead_or_first d p with hdead | ⟨f, hf, hlow⟩
  · simp [hdead t] at hlive
  · have hle : f ≤ t := by
      by_contra hlt
      simp [hlow t (by omega)] at hlive
    rw [visibleEntry_of_first hf hlow, ← hlv f hle]
    refine visibleEntry_of_first ((hpt f hle).trans hf) fun j hj => ?_
    rw [hpt j (by omega), hlow j hj]

/-! ## The invariants I1 to I4 (10_state R26) -/

/-- What I2 to I4 say of one slot on one page: a live slot is used and its local view is a grant of its own; a dead one's
local view is the undefined stub. -/
def Arbiter.GrantSound (m : Arbiter) (d : Dir) (p : Page) (t : Nat) : Prop :=
  (m.ptAt d p t = true → m.usedAt t = true ∧ (m.lvAt t d p).kind ≠ .undef ∧ (m.lvAt t d p).owner.toNat = t) ∧
  (m.ptAt d p t = false → m.lvAt t d p = undefEntry)

/-- The invariants are the slots' grants and that the global table shows what shows through. -/
theorem Arbiter.inv_iff (m : Arbiter) :
    m.Inv ↔ m.SlotBounds ∧ (∀ d p t, m.GrantSound d p t) ∧ ∀ d p, m.gtAt d p = m.visibleEntry d p := by
  constructor
  · rintro ⟨hb, h1, h2, h3, -⟩
    refine ⟨hb, fun d p t => ⟨fun hlive => ?_, fun hdead => ?_⟩, fun d p => ?_⟩
    · have ht := m.lt_of_ptAt d p t hlive
      obtain ⟨hu, ho⟩ := h3 d p ⟨t, ht⟩ hlive
      exact ⟨hu, (h2 d p ⟨t, ht⟩).1.1 hlive, ho⟩
    · by_cases ht : t < m.nslot
      · exact (h2 d p ⟨t, ht⟩).2 hdead
      · exact m.lvAt_of_ge d p t (by omega)
    · have := h1 d p
      rw [Arbiter.visibleEntry]
      cases hf : m.firstLive d p with
      | none => rw [hf] at this; exact this
      | some t => rw [hf] at this; exact this.1
  · rintro ⟨hb, hg, hv⟩
    refine ⟨hb, fun d p => ?_, fun d p t => ⟨⟨fun hlive => ((hg d p t).1 hlive).2.1, fun hk => ?_⟩, (hg d p t).2⟩,
      fun d p t hlive => ?_, fun t hfree d p => ?_⟩
    · cases hf : m.firstLive d p with
      | none => exact (hv d p).trans (by rw [Arbiter.visibleEntry, hf])
      | some t =>
        have heq : m.gtAt d p = m.lvAt t d p := (hv d p).trans (by rw [Arbiter.visibleEntry, hf])
        exact ⟨heq, heq ▸ ((hg d p t).1 ((m.firstLive_eq_some_iff d p t).1 hf).1).2.2⟩
    · by_contra hdead
      exact hk (by rw [(hg d p t).2 (by simpa using hdead)]; rfl)
    · obtain ⟨hu, -, ho⟩ := (hg d p t).1 hlive
      exact ⟨hu, ho⟩
    · by_contra hlive
      simp [((hg d p t).1 (by simpa using hlive)).1] at hfree

section
variable {m : Arbiter} (hm : m.Inv)
include hm

theorem Arbiter.Inv.grantSound (d : Dir) (p : Page) (t : Nat) : m.GrantSound d p t := (m.inv_iff.1 hm).2.1 d p t

theorem Arbiter.Inv.gtAt_eq_visibleEntry (d : Dir) (p : Page) : m.gtAt d p = m.visibleEntry d p :=
  (m.inv_iff.1 hm).2.2 d p

theorem Arbiter.Inv.gtAt_of_first {d : Dir} {p : Page} {t : Nat} (hlive : m.ptAt d p t = true)
    (hlow : ∀ j, j < t → m.ptAt d p j = false) : m.gtAt d p = m.lvAt t d p :=
  (hm.gtAt_eq_visibleEntry d p).trans (Arbiter.visibleEntry_of_first hlive hlow)

theorem Arbiter.Inv.gtAt_of_dead {d : Dir} {p : Page} (hdead : ∀ j, m.ptAt d p j = false) : m.gtAt d p = undefEntry :=
  (hm.gtAt_eq_visibleEntry d p).trans (Arbiter.visibleEntry_of_none hdead)

/-- In a sound arbiter every callback entry of the global table names a slot. -/
theorem Arbiter.Inv.ownersExist : m.OwnersExist := by
  intro d p hk
  rcases m.dead_or_first d p with hdead | ⟨t, hlive, hlow⟩
  · rw [hm.gtAt_of_dead hdead] at hk
    cases hk
  · rw [hm.gtAt_of_first hlive hlow, ((hm.grantSound d p t).1 hlive).2.2]
    exact m.lt_of_ptAt d p t hlive

/-! ## Every change of the tables keeps the invariants -/

/-- Taking a free slot: no grant is touched, and a used slot stays used. -/
theorem Arbiter.Inv.setSlot_used (k : Nat) (dev : DeviceId) : (m.setSlot k true dev).Inv := by
  refine (Arbiter.inv_iff _).2 ⟨?_, fun d p t => ⟨fun hlive => ?_, fun hdead => ?_⟩, fun d p => ?_⟩
  · simpa [Arbiter.SlotBounds] using hm.bounds
  · rw [Arbiter.ptAt_setSlot] at hlive
    rw [Arbiter.usedAt_setSlot, Arbiter.lvAt_setSlot, ((hm.grantSound d p t).1 hlive).1]
    exact ⟨by simp, ((hm.grantSound d p t).1 hlive).2⟩
  · rw [Arbiter.ptAt_setSlot] at hdead
    rw [Arbiter.lvAt_setSlot, (hm.grantSound d p t).2 hdead]
  · rw [Arbiter.gtAt_setSlot, hm.gtAt_eq_visibleEntry d p]
    exact Arbiter.visibleEntry_congr _ _ _ _ (by simp) (by simp)

/-- Granting pages to a used slot: the new entries are the slot's own, and the global table shows them exactly where no lower
slot is live. -/
theorem Arbiter.Inv.allocPages {s : Nat} (hs : m.usedAt s = true) (d : Dir) {e : Page → Entry}
    (hkind : ∀ p, (e p).kind ≠ .undef) (howner : ∀ p, (e p).owner.toNat = s) (l : List Page) :
    (m.allocPages s d e l).Inv := by
  have hlt := m.lt_of_usedAt s hs
  refine (Arbiter.inv_iff _).2 ⟨?_, fun d' p t => ?_, fun d' p => ?_⟩
  · simpa [Arbiter.SlotBounds] using hm.bounds
  · rw [Arbiter.GrantSound, Arbiter.ptAt_allocPages, Arbiter.lvAt_allocPages, Arbiter.usedAt_allocPages]
    by_cases hnew : t = s ∧ s < m.nslot ∧ d' = d ∧ p ∈ l
    · rw [if_pos hnew, if_pos hnew]
      exact ⟨fun _ => ⟨hnew.1 ▸ hs, hkind p, hnew.1 ▸ howner p⟩, nofun⟩
    · rw [if_neg hnew, if_neg hnew]
      exact hm.grantSound d' p t
  · rw [Arbiter.gtAt_allocPages, hm.gtAt_eq_visibleEntry]
    by_cases hin : d' = d ∧ p ∈ l
    · obtain ⟨rfl, hp⟩ := hin
      by_cases hlow : ∀ t, t < s → m.ptAt d' p t = false
      · rw [if_pos ⟨rfl, hp, hlt, hlow⟩, Arbiter.visibleEntry_of_first (t := s)]
        · simp [Arbiter.lvAt_allocPages, hlt, hp]
        · simp [Arbiter.ptAt_allocPages, hlt, hp]
        · intro j hj
          rw [Arbiter.ptAt_allocPages, if_neg fun h => absurd h.1 hj.ne, hlow j hj]
      · rw [if_neg fun h => hlow h.2.2.2]
        push Not at hlow
        obtain ⟨t, ht, hlive⟩ := hlow
        refine (Arbiter.visibleEntry_congr_upto (t := t) (by simpa using hlive) (fun j hj => ?_) fun j hj => ?_).symm
        · rw [Arbiter.ptAt_allocPages, if_neg fun h => by omega]
        · rw [Arbiter.lvAt_allocPages, if_neg fun h => by omega]
    · rw [if_neg fun h => hin ⟨h.1, h.2.1⟩]
      refine (Arbiter.visibleEntry_congr _ _ _ _ (fun t => ?_) fun t => ?_).symm
      · rw [Arbiter.ptAt_allocPages, if_neg fun h => hin h.2.2]
      · rw [Arbiter.lvAt_allocPages, if_neg fun h => hin h.2.2]

end

section
variable {m n : Arbiter} {h : Handle} {released : Dir → Page → Prop} (hrel : Arbiter.ReleasedOn m n h released)
include hrel

/-- A grant that is left after a release was there before, with the same local view. -/
theorem Arbiter.ReleasedOn.of_live {d : Dir} {p : Page} {t : Nat} (hlive : n.ptAt d p t = true) :
    m.ptAt d p t = true ∧ n.lvAt t d p = m.lvAt t d p := by
  obtain ⟨-, hin, hout, hother⟩ := hrel
  by_cases ht : t = h.toNat
  · subst ht
    by_cases hr : released d p
    · simp [(hin d p hr).1] at hlive
    · obtain ⟨hpt, hlv, -⟩ := hout d p hr
      exact ⟨hpt ▸ hlive, hlv⟩
  · obtain ⟨hpt, hlv⟩ := hother d p t ht
    exact ⟨hpt ▸ hlive, hlv⟩

/-- After a release a slot without a grant has the undefined stub as its local view, if that was so before. -/
theorem Arbiter.ReleasedOn.lvAt_of_dead {d : Dir} {p : Page} {t : Nat}
    (hm : m.ptAt d p t = false → m.lvAt t d p = undefEntry) (hdead : n.ptAt d p t = false) :
    n.lvAt t d p = undefEntry := by
  obtain ⟨-, hin, hout, hother⟩ := hrel
  by_cases ht : t = h.toNat
  · subst ht
    by_cases hr : released d p
    · obtain ⟨-, hlive, hwas, -⟩ := hin d p hr
      cases hpt : m.ptAt d p h.toNat with
      | true => exact hlive hpt
      | false => exact (hwas hpt).trans (hm hpt)
    · obtain ⟨hpt, hlv, -⟩ := hout d p hr
      exact hlv.trans (hm (hpt ▸ hdead))
  · obtain ⟨hpt, hlv⟩ := hother d p t ht
    exact hlv.trans (hm (hpt ▸ hdead))

/-- Where the released handle is not the first live slot, the entry that shows through is as before. -/
theorem Arbiter.ReleasedOn.visibleEntry_eq {d : Dir} {p : Page}
    (hfirst : ¬(released d p ∧ m.firstLive d p = some h.toNat)) : n.visibleEntry d p = m.visibleEntry d p := by
  have hdead : ∀ j, m.ptAt d p j = false → n.ptAt d p j = false := fun j hj => by
    by_contra hlive
    have hwas := (hrel.of_live (Bool.eq_true_of_not_eq_false hlive)).1
    simp [hj] at hwas
  rcases m.dead_or_first d p with hnone | ⟨t, hlive, hlow⟩
  · rw [Arbiter.visibleEntry_of_none hnone, Arbiter.visibleEntry_of_none fun j => hdead j (hnone j)]
  · have hkept : n.ptAt d p t = m.ptAt d p t ∧ n.lvAt t d p = m.lvAt t d p := by
      obtain ⟨-, -, hout, hother⟩ := hrel
      by_cases ht : t = h.toNat
      · subst ht
        obtain ⟨hpt, hlv, -⟩ := hout d p fun hr => hfirst ⟨hr, (m.firstLive_eq_some_iff d p _).2 ⟨hlive, hlow⟩⟩
        exact ⟨hpt, hlv⟩
      · exact hother d p t ht
    rw [Arbiter.visibleEntry_of_first hlive hlow, ← hkept.2]
    exact Arbiter.visibleEntry_of_first (hkept.1.trans hlive) fun j hj => hdead j (hlow j hj)

/-- Where the released handle held no grant that it showed, the global entry is as before. -/
theorem Arbiter.ReleasedOn.gtAt_eq {d : Dir} {p : Page}
    (hown : ¬(released d p ∧ m.ptAt d p h.toNat = true ∧ (m.gtAt d p).owner = h)) : n.gtAt d p = m.gtAt d p := by
  obtain ⟨-, hin, hout, -⟩ := hrel
  by_cases hr : released d p
  · obtain ⟨-, -, -, -, hkeep⟩ := hin d p hr
    refine hkeep ?_
    rw [← Bool.not_eq_true]
    exact not_and_or.1 fun hc => hown ⟨hr, hc⟩
  · exact (hout d p hr).2.2

/-- A release of a sound arbiter is sound, as long as a slot that keeps a grant stays used: where the handle owned the global
entry the next live slot shows through, and elsewhere the first live slot is another and shows as before. -/
theorem Arbiter.ReleasedOn.inv (hm : m.Inv)
    (hused : ∀ d p t, n.ptAt d p t = true → m.usedAt t = true → n.usedAt t = true) : n.Inv := by
  refine n.inv_iff.2 ⟨?_, fun d p t => ⟨fun hlive => ?_, fun hdead => ?_⟩, fun d p => ?_⟩
  · simpa [Arbiter.SlotBounds, hrel.1] using hm.bounds
  · obtain ⟨hpt, hlv⟩ := hrel.of_live hlive
    obtain ⟨hu, hgrant⟩ := (hm.grantSound d p t).1 hpt
    exact ⟨hused d p t hlive hu, hlv ▸ hgrant⟩
  · exact hrel.lvAt_of_dead (hm.grantSound d p t).2 hdead
  · by_cases hown : released d p ∧ m.ptAt d p h.toNat = true ∧ (m.gtAt d p).owner = h
    · obtain ⟨hr, hlive, ho⟩ := hown
      obtain ⟨-, -, -, hreload, -⟩ := hrel.2.1 d p hr
      rw [hreload hlive ho, Arbiter.visibleEntry]
      cases hf : n.firstLive d p with
      | none => rfl
      | some t => exact (hrel.of_live ((n.firstLive_eq_some_iff d p t).1 hf).1).2.symm
    · rw [hrel.gtAt_eq hown, hrel.visibleEntry_eq, hm.gtAt_eq_visibleEntry]
      rintro ⟨hr, hf⟩
      obtain ⟨hlive, hlow⟩ := (m.firstLive_eq_some_iff d p _).1 hf
      refine hown ⟨hr, hlive, BitVec.eq_of_toNat_eq ?_⟩
      rw [hm.gtAt_of_first hlive hlow, ((hm.grantSound d p _).1 hlive).2.2]

end

/-- The reset tables are sound: no slot holds anything. -/
theorem Arbiter.inv_reset {n : Nat} (hlow : 2 ≤ n) (hhigh : n ≤ 128) : (Arbiter.reset n).Inv := by
  refine (Arbiter.inv_iff _).2 ⟨?_, fun d p t => ⟨fun hlive => ?_, fun _ => Arbiter.lvAt_reset n t d p⟩, fun d p => ?_⟩
  · rw [Arbiter.SlotBounds, Arbiter.nslot_reset]
    exact ⟨hlow, hhigh⟩
  · rw [Arbiter.ptAt_reset] at hlive
    cases hlive
  · rw [Arbiter.gtAt_reset, Arbiter.visibleEntry_of_none fun j => Arbiter.ptAt_reset n j d p]

/-- A granted entry is no undefined stub. -/
theorem grantEntry_kind_ne_undef (h : Handle) (iscb : Bool) (addr : Address) (target stride : Pointer) (p : Page) :
    (grantEntry h iscb addr target stride p).kind ≠ .undef := by
  cases iscb <;> nofun

/-- Whatever a table command makes of a sound arbiter is sound. -/
theorem Arbiter.Becomes.inv {m n : Arbiter} {i : Instr} (hn : m.Becomes i n) (hm : m.Inv) : n.Inv := by
  cases hn with
  | minit => exact Arbiter.inv_reset hm.bounds.1 hm.bounds.2
  | mconn hlt hfree => exact hm.setSlot_used _ _
  | @mdisc h hu hb =>
    have hrel := m.releasedOn_releaseAll_setSlot h false 0#16
    refine hrel.inv hm fun d p t hlive hused => ?_
    have ht : t ≠ h.toNat := by
      rintro rfl
      simp [(hrel.2.1 d p trivial).1] at hlive
    rw [Arbiter.usedAt_setSlot, if_neg fun hc => ht hc.1]
    simpa [Arbiter.releaseAll_eq] using hused
  | malloc hu => exact hm.allocPages hu _ (grantEntry_kind_ne_undef _ _ _ _ _) (fun _ => rfl) _
  | mrel hu hb => exact (m.releasedOn_releasePages _ _ _).inv hm fun d p t _ hused => by simpa using hused
  | mpage => exact hm

/-! ## The machine -/

/-- A write of the backing store keeps the canonical form. -/
theorem State.wf_bsWrite {s : State} (hbs : s.bs.wf = true) (p : Pointer) (v : Byte) : (s.bsWrite p v).bs.wf = true :=
  Memory.wf_write s.bs p.toNat v p.isLt hbs

/-- The invariant does not speak of the port. -/
theorem State.Inv.withPort {s : State} (hs : s.Inv) (q : List Input) : (s.withPort q).Inv := ⟨hs.ma, hs.bs⟩

/-- A command that completes keeps the machine's invariant. -/
theorem Completes.inv {s t : State} {i : Instr} (hc : Completes s i t) (hs : s.Inv) : t.Inv := by
  cases hc with
  | flags | failed | read => exact ⟨hs.ma, hs.bs⟩
  | tables _ _ hm => exact ⟨hm.inv hs.ma, hs.bs⟩
  | write e hbs =>
    rcases hbs with ⟨-, rfl⟩ | ⟨-, rfl⟩
    · exact ⟨hs.ma, State.wf_bsWrite hs.bs _ _⟩
    · exact ⟨hs.ma, hs.bs⟩

/-- Settles O50: an idle step and an illegal word touch neither the tables nor the backing store, a command keeps the
invariant, hardware reset leaves the reset tables, and an outside write is one write of the backing store. -/
theorem stepKeepsSoundness : Obligations.StepKeepsSoundness := by
  intro s t hs h
  rcases step_cases s with ⟨-, hstep⟩ | ⟨cw, rest, i, -, -, hstep⟩ | ⟨cw, rest, r, -, -, hstep⟩ | ⟨rest, -, hstep⟩ |
    ⟨p, v, rest, -, hstep⟩ <;> rw [hstep] at h
  · cases h
    exact hs
  · exact (exec_completes h).inv (hs.withPort rest)
  · cases h
    exact ⟨hs.ma, hs.bs⟩
  · cases h
    refine ⟨?_, hs.bs⟩
    rw [State.hardReset_ma, State.resetArbiter_ma]
    exact Arbiter.inv_reset hs.ma.bounds.1 hs.ma.bounds.2
  · cases h
    exact ⟨hs.ma, State.wf_bsWrite (s := s) hs.bs p v⟩

/-- Settles O49: power-up holds the reset tables and an empty backing store. -/
theorem resetIsSound : Obligations.ResetIsSound := by
  have hpower : ∀ (c : Params) (n : Nat), 2 ≤ n → n ≤ 128 → (State.powerUp c n).Inv := fun c n hlow hhigh =>
    ⟨Arbiter.inv_reset hlow hhigh, rfl⟩
  exact ⟨hpower _ _ (by decide) (by decide), hpower⟩

/-- A command completes from every sound state: the fault needs a callback entry without a slot. -/
theorem exec_of_inv {s : State} (hs : s.Inv) (i : Instr) : ∃ t, exec i s = .next t := by
  have hslot : ∀ d a, (s.ma.resolve d a).kind = .cb → ¬s.ma.nslot ≤ (s.ma.resolve d a).owner.toNat := fun d a hk =>
    Nat.not_le.2 (hs.ma.ownersExist d (pageOf a) hk)
  cases haccess : isByteAccess i with
  | false => exact (exec_completes_of_not_access haccess).imp fun _ h => h.1
  | true =>
    cases i with
    | mread8 a =>
      rcases exec_mread8_cases a with ⟨t, h, -⟩ | ⟨hk, howner, -⟩
      · exact ⟨t, h⟩
      · exact absurd howner (hslot .r a hk)
    | mwrite8 a v =>
      rcases exec_mwrite8_cases a v with ⟨t, h, -⟩ | ⟨hk, howner, -⟩
      · exact ⟨t, h⟩
      · exact absurd howner (hslot .w a hk)
    | _ => cases haccess

/-- Settles O51: a step that runs a command completes by the invariant, and every other step answers a next state. -/
theorem soundStatesStep : Obligations.SoundStatesStep := by
  intro s hs
  rcases step_cases s with ⟨-, hstep⟩ | ⟨cw, rest, i, -, -, hstep⟩ | ⟨cw, rest, r, -, -, hstep⟩ | ⟨rest, -, hstep⟩ |
    ⟨p, v, rest, -, hstep⟩ <;> rw [Steps, hstep]
  · exact ⟨_, rfl⟩
  · exact exec_of_inv (hs.withPort rest) i
  · exact ⟨_, rfl⟩
  · exact ⟨_, rfl⟩
  · exact ⟨_, rfl⟩

/-- Settles O52: the global table shows what shows through, and the first live slot's local view is a grant of its own. -/
theorem globalTableIsVisibleEntry : Obligations.GlobalTableIsVisibleEntry := by
  intro m d p hm
  refine ⟨fun t hlive hlow => ?_, hm.gtAt_of_dead⟩
  have hgt := hm.gtAt_of_first hlive hlow
  obtain ⟨-, hgrant⟩ := (hm.grantSound d p t).1 hlive
  exact ⟨hgt, hgt ▸ hgrant⟩

end Sys2Proof.Machine
end

section
/-! PROOF. The two units beside one another, the byte accesses and the global table, and the commands that grant and release
over whole ranges (00_scope section 1, 20_memory sections 3 and 6, 41_memory_arbiter sections 1 to 3). -/

namespace Sys2Proof.Machine

/-! ## Byte accesses in two states -/

/-- `MREAD8` completes exactly where its access path gives a byte. -/
theorem memRead_of_exec {a : Address} {s t : State} (h : exec (.mread8 a) s = .next t) :
    ∃ v u, memRead s a = .ok (v, u) ∧ t = u.respond .ok 0#8 false (v.setWidth 32) := by
  cases hread : memRead s a with
  | ok r =>
    obtain ⟨v, u⟩ := r
    rw [exec_mread8_of_memRead hread] at h
    cases h
    exact ⟨v, u, rfl, rfl⟩
  | error f => simp [exec, execMread8, hread] at h

/-- `MWRITE8` completes exactly where its access path does. -/
theorem memWrite_of_exec {a : Address} {v : Byte} {s t : State} (h : exec (.mwrite8 a v) s = .next t) :
    ∃ u, memWrite s a v = .ok u ∧ t = u.respondStatus .ok := by
  cases hwrite : memWrite s a v with
  | ok u =>
    rw [exec_mwrite8_of_memWrite hwrite] at h
    cases h
    exact ⟨u, rfl, rfl⟩
  | error f => simp [exec, execMwrite8, hwrite] at h

/-- Taking a device's answer touches neither unit. -/
theorem State.dropDevAnswer_with_units (s : State) (fe : FlagEvaluator) (m : Arbiter) :
    State.dropDevAnswer { s with fe := fe, ma := m } = { s.dropDevAnswer with fe := fe, ma := m } := by
  simp only [State.dropDevAnswer]
  cases s.devIn <;> rfl

section
variable {a : Address} {s t : State} {m : Arbiter} (fe : FlagEvaluator) (hdev : ∀ k, m.devAt k = s.ma.devAt k)
include hdev

/-- `MREAD8` does the same beside any Flag Evaluator and any arbiter with the same read entry and devices. -/
theorem exec_mread8_congr (hgt : m.gtAt .r (pageOf a) = s.ma.gtAt .r (pageOf a)) (h : exec (.mread8 a) s = .next t) :
    exec (.mread8 a) { s with fe := fe, ma := m } = .next { t with fe := fe, ma := m } := by
  obtain ⟨v, u, hread, rfl⟩ := memRead_of_exec h
  suffices hread' : memRead { s with fe := fe, ma := m } a = .ok (v, { u with fe := fe, ma := m }) from
    exec_mread8_of_memRead hread'
  simp only [memRead, Arbiter.resolve, hgt, hdev, State.dropDevAnswer_with_units] at hread ⊢
  split at hread
  · cases hread; rfl
  · split at hread
    · cases hread; rfl
    · cases hread
  · cases hread; rfl

/-- `MWRITE8` does the same beside any Flag Evaluator and any arbiter with the same write entry and devices. -/
theorem exec_mwrite8_congr {v : Byte} (hgt : m.gtAt .w (pageOf a) = s.ma.gtAt .w (pageOf a))
    (h : exec (.mwrite8 a v) s = .next t) :
    exec (.mwrite8 a v) { s with fe := fe, ma := m } = .next { t with fe := fe, ma := m } := by
  obtain ⟨u, hwrite, rfl⟩ := memWrite_of_exec h
  suffices hwrite' : memWrite { s with fe := fe, ma := m } a v = .ok { u with fe := fe, ma := m } from
    exec_mwrite8_of_memWrite hwrite'
  simp only [memWrite, Arbiter.resolve, hgt, hdev] at hwrite ⊢
  split at hwrite
  · cases hwrite; rfl
  · split at hwrite
    · cases hwrite; rfl
    · cases hwrite
  · cases hwrite; rfl

end

/-- Settles O56: a byte access leaves the Flag Evaluator, so it is the same access beside the same Flag Evaluator and an
arbiter with the same entries and devices. -/
theorem accessReadsGlobalTableOnly : Obligations.AccessReadsGlobalTableOnly := by
  intro a v s t m hgt hdev
  refine ⟨fun h => ?_, fun h => ?_⟩
  · have hfe : t.fe = s.fe := exec_fe h
    rw [hfe]
    exact exec_mread8_congr s.fe hdev (hgt .r) h
  · have hfe : t.fe = s.fe := exec_fe h
    rw [hfe]
    exact exec_mwrite8_congr s.fe hdev (hgt .w) h

/-- A Flag Evaluator command does the same beside any arbiter, backing store and device answers. -/
theorem exec_flag_congr {i : Instr} {s t : State} (hflag : isFlagCommand i = true) (h : exec i s = .next t)
    (m : Arbiter) (bs : Memory) (devIn : List Byte) (draws : Nat) :
    exec i { s with ma := m, bs := bs, devIn := devIn, draws := draws } =
      .next { t with ma := m, bs := bs, devIn := devIn, draws := draws } := by
  cases i with
  | frst | frec | fget | fset => cases h; rfl
  | _ => cases hflag

/-- A command that is none of the Flag Evaluator's does the same beside any Flag Evaluator: its checks read the arbiter. -/
theorem exec_arbiter_congr {i : Instr} {s t : State} (hflag : isFlagCommand i = false) (h : exec i s = .next t)
    (fe : FlagEvaluator) : exec i { s with fe := fe } = .next { t with fe := fe } := by
  cases i with
  | frst | frec | fget | fset => cases hflag
  | minit | mpage => cases h; rfl
  | mconn high dev =>
    simp only [exec, execMconn] at h ⊢
    split at h <;> cases h <;> rfl
  | mdisc h' =>
    simp only [exec, execMdisc] at h ⊢
    split_ifs at h ⊢ <;> cases h <;> rfl
  | malloc h' iscb d addr len target stride =>
    simp only [exec, execMalloc] at h ⊢
    split_ifs at h ⊢ <;> cases h <;> rfl
  | mrel h' d addr len =>
    simp only [exec, execMrel] at h ⊢
    split_ifs at h ⊢ <;> cases h <;> rfl
  | mread8 a =>
    obtain ⟨-, -, hma, -⟩ := (byteAccessFrame a 0#8 s t).1 h
    rw [hma]
    exact exec_mread8_congr fe (m := s.ma) (fun _ => rfl) rfl h
  | mwrite8 a v =>
    obtain ⟨-, -, hma, -⟩ := (byteAccessFrame a v s t).2 h
    rw [hma]
    exact exec_mwrite8_congr fe (m := s.ma) (fun _ => rfl) rfl h

/-- Settles O37: each half is the comparison of two runs of one unit's commands. -/
theorem unitsShareNoState : Obligations.UnitsShareNoState :=
  ⟨fun _ _ _ m bs devIn draws hflag h => exec_flag_congr hflag h m bs devIn draws,
    fun _ _ _ fe hflag h => exec_arbiter_congr hflag h fe⟩

/-! ## Two commands after one another (20_memory R40) -/

/-- The run of two commands that complete. -/
theorem runCommands_pair {i j : Instr} {s t u : State} (hi : exec i s = .next t) (hj : exec j t = .next u) :
    runCommands [i, j] s = .next u := by
  simp only [runCommands, hi, hj]

/-- Settles O57: the write leaves the tables, so the read resolves to the same pointer and sees the byte written there. -/
theorem readReturnsLatestWrite : Obligations.ReadReturnsLatestWrite := by
  intro a b v s hwrite hread hpointer
  have hw := exec_mwrite8_of_memWrite (memWrite_of_ptr v hwrite)
  refine ⟨_, runCommands_pair hw (exec_mread8_of_memRead (memRead_of_ptr hread)), ?_⟩
  have hbyte : (s.bsWrite (pointerOf (s.ma.resolve .w a) a) v).bsRead (pointerOf (s.ma.resolve .r b) b) = v := by
    rw [State.bsRead_bsWrite, if_pos hpointer.symm]
  simp only [State.respond_rsps, State.emit_rsps, State.respondStatus_rsps, State.bsWrite_rsps, List.append_assoc,
    List.singleton_append]
  exact congrArg (fun r : Byte => s.rsps ++ [_, responseWord .ok 0#8 false (r.setWidth 32)]) hbyte

/-! ## What becomes of the tables -/

/-- A command that completes leaves the arbiter or makes of it what a table command makes. -/
theorem exec_ma {i : Instr} {s t : State} (h : exec i s = .next t) : t.ma = s.ma ∨ s.ma.Becomes i t.ma := by
  cases exec_completes h with
  | flags | failed | read | write => exact .inl rfl
  | tables _ _ hm => exact .inr hm

@[simp] theorem Arbiter.nslot_releaseAll (m : Arbiter) (h : Handle) : (m.releaseAll h).nslot = m.nslot := by
  simp [Arbiter.releaseAll_eq]

@[simp] theorem Arbiter.usedAt_releaseAll (m : Arbiter) (h : Handle) (t : Nat) :
    (m.releaseAll h).usedAt t = m.usedAt t := by simp [Arbiter.releaseAll_eq]

@[simp] theorem Arbiter.devAt_releaseAll (m : Arbiter) (h : Handle) (t : Nat) :
    (m.releaseAll h).devAt t = m.devAt t := by simp [Arbiter.releaseAll_eq]

/-- No table command changes the number of slots (10_state R28). -/
theorem Arbiter.Becomes.nslot_eq {m n : Arbiter} {i : Instr} (hn : m.Becomes i n) : n.nslot = m.nslot := by
  cases hn <;> simp

/-- No table command but `MINIT` takes anything from the backstop: `MCONN` writes a free slot, `MDISC` and `MREL` have checked
that theirs is another, and `MALLOC` only grants. -/
theorem Arbiter.Becomes.keeps_backstop {m n : Arbiter} {i : Instr} (hn : m.Becomes i n) (hi : i ≠ .minit) {b : Nat}
    (hb : b + 1 = m.nslot) (hu : m.usedAt b = true) :
    n.usedAt b = true ∧ n.devAt b = m.devAt b ∧ ∀ d p, m.ptAt d p b = true → n.ptAt d p b = true := by
  have hother : ∀ h : Handle, m.isBackstop h = false → b ≠ h.toNat := by
    rintro h hno rfl
    simp [(m.isBackstop_iff h).2 hb] at hno
  cases hn with
  | minit => exact absurd rfl hi
  | @mconn _ _ k _ hfree =>
    have hne : b ≠ k := by
      rintro rfl
      simp [hu] at hfree
    simp [Arbiter.usedAt_setSlot, Arbiter.devAt_setSlot, hne, hu]
  | mdisc _ hno =>
    simp [Arbiter.usedAt_setSlot, Arbiter.devAt_setSlot, Arbiter.ptAt_releaseAll, hother _ hno, hu]
  | malloc => exact ⟨by simpa using hu, by simp, fun d p hlive => by simp [Arbiter.ptAt_allocPages, hlive]⟩
  | mrel _ hno => simp [Arbiter.ptAt_releasePages, hother _ hno, hu]
  | mpage => exact ⟨hu, rfl, fun _ _ => id⟩

/-- Settles O58: the tables are as before, or they are what a table command other than `MINIT` makes of them. -/
theorem backstopIsNeverReleased : Obligations.BackstopIsNeverReleased := by
  intro i s t b h hi hb hu
  rcases exec_ma h with hma | hma
  · rw [hma]
    exact ⟨hu, rfl, fun _ _ => id⟩
  · exact hma.keeps_backstop hi hb hu

/-! ## A grant and its release (41_memory_arbiter R98, R99) -/

section
variable {m : Arbiter} {h : Handle} {d : Dir} {l : List Page} (hfresh : ∀ p ∈ l, m.ptAt d p h.toNat = false)
include hfresh

/-- Granting pages on which the handle held nothing and releasing them leaves every grant as it was. -/
theorem Arbiter.ptAt_releasePages_allocPages (e : Page → Entry) (d' : Dir) (p : Page) (t : Nat) :
    ((m.allocPages h.toNat d e l).releasePages h d l).ptAt d' p t = m.ptAt d' p t := by
  rw [Arbiter.ptAt_releasePages, Arbiter.ptAt_allocPages]
  by_cases hin : t = h.toNat ∧ d' = d ∧ p ∈ l
  · obtain ⟨rfl, rfl, hp⟩ := hin
    rw [if_pos ⟨rfl, rfl, hp⟩, hfresh p hp]
  · rw [if_neg hin, if_neg fun hc => hin ⟨hc.1, hc.2.2⟩]

/-- And every local view, since a dead one was the undefined stub. -/
theorem Arbiter.Inv.lvAt_releasePages_allocPages (hm : m.Inv) (hlt : h.toNat < m.nslot) (e : Page → Entry) (t : Nat)
    (d' : Dir) (p : Page) :
    ((m.allocPages h.toNat d e l).releasePages h d l).lvAt t d' p = m.lvAt t d' p := by
  rw [Arbiter.lvAt_releasePages, Arbiter.lvAt_allocPages, Arbiter.ptAt_allocPages]
  by_cases hin : t = h.toNat ∧ d' = d ∧ p ∈ l
  · obtain ⟨rfl, rfl, hp⟩ := hin
    rw [if_pos ⟨rfl, rfl, hp, if_pos ⟨rfl, hlt, rfl, hp⟩⟩, (hm.grantSound d' p _).2 (hfresh p hp)]
  · rw [if_neg fun hc => hin ⟨hc.1, hc.2.1, hc.2.2.1⟩, if_neg fun hc => hin ⟨hc.1, hc.2.2⟩]

end

/-- Settles O59: the grants and the local views are as before, and in a sound arbiter, which the tables are after each of the
two commands, they determine the global table. -/
theorem releaseRestoresOverlaidPages : Obligations.ReleaseRestoresOverlaidPages := by
  intro h iscb d addr len target stride s hm hu hlt hend hfresh
  have ha := argCheck_of_end_le hend
  have hb := Arbiter.isBackstop_eq_false hlt
  have halloc := exec_malloc_ok (d := d) iscb target stride hu ha
  have hgranted := hm.allocPages hu d (grantEntry_kind_ne_undef h iscb addr target stride) (fun _ => rfl) (cover addr len)
  have hpt := Arbiter.ptAt_releasePages_allocPages hfresh (grantEntry h iscb addr target stride)
  have hlv := hm.lvAt_releasePages_allocPages hfresh (by omega) (grantEntry h iscb addr target stride)
  have hreleased := (Arbiter.releasedOn_releasePages _ h d (cover addr len)).inv hgranted fun _ _ _ _ => by simp
  refine ⟨_, runCommands_pair halloc (exec_mrel_ok d ?_ ha ?_), fun d' p => ?_, hlv, hpt, fun k => ?_⟩
  · simpa using hu
  · exact Arbiter.isBackstop_eq_false (by simpa using hlt)
  · rw [hm.gtAt_eq_visibleEntry d' p]
    exact (hreleased.gtAt_eq_visibleEntry d' p).trans
      (Arbiter.visibleEntry_congr _ _ _ _ (hpt d' p) fun t => hlv t d' p)
  · exact ⟨by simp, by simp⟩

/-! ## The pages of a range (41_memory_arbiter R94) -/

/-- A page lies between the first and the last page of a range exactly when it holds a byte of it. -/
theorem exists_byte_iff {a n : Nat} (hn : 0 < n) (p : Nat) :
    (∃ b, a ≤ b ∧ b < a + n ∧ b / 1024 = p) ↔ a / 1024 ≤ p ∧ p ≤ (a + n - 1) / 1024 := by
  constructor
  · rintro ⟨b, hlow, hhigh, rfl⟩
    omega
  · rintro ⟨hlow, hhigh⟩
    exact ⟨max a (1024 * p), by omega, by omega, by omega⟩

/-- Settles O47: the last page of a range that ends in the address space is the page of its last byte, and the covering pages
are taken from all pages in their order. -/
theorem coverIsEveryTouchedPage : Obligations.CoverIsEveryTouchedPage := by
  intro addr len
  refine ⟨argCheck_iff addr len, fun hok => ⟨fun p => ?_, ?_⟩⟩
  · obtain ⟨-, hend⟩ := (argCheck_iff addr len).1 hok
    have hlen : len ≠ 0#24 ↔ 0 < len.toNat := by
      rw [Nat.pos_iff_ne_zero, Ne, Ne, ← BitVec.toNat_inj]
      rfl
    rw [mem_cover_iff, hlen, firstPage_eq, lastPage]
    by_cases hpos : 0 < len.toNat
    · have hlast : (addr.toNat + len.toNat - 1) / 1024 % 64 = (addr.toNat + len.toNat - 1) / 1024 := by omega
      rw [hlast, exists_byte_iff hpos, and_iff_right hpos]
    · exact ⟨fun h => absurd h.1 hpos, fun ⟨b, h1, h2, _⟩ => by omega⟩
  · unfold cover
    split
    · exact .nil
    · exact .filter _ (List.pairwise_lt_finRange 64)

end Sys2Proof.Machine
end

section
/-! PROOF. What a step does with each input of the port, and what no step changes (10_state R18 and R28, 20_memory R32,
70_reset_and_hazards R132; log entries 1 and 7). -/

namespace Sys2Proof.Machine

/-- Settles O7: a word the decoder accepts is taken from the port and its command carried out. -/
theorem stepRunsDecodedCommand : Obligations.StepRunsDecodedCommand := by
  intro s cw rest i hport hd
  simp only [step, fetch, hport, hd, State.withPort]

/-- Settles O8: with nothing presented there is nothing to fetch. -/
theorem idleStepChangesNothing : Obligations.IdleStepChangesNothing := by
  intro s hport
  simp only [step, fetch, hport]

/-- Settles O10: the answer to an illegal command keeps the mark that is there. -/
theorem firstRejectedWordMarksTheRun : Obligations.FirstRejectedWordMarksTheRun := by
  intro s cw rest reason hport hd
  refine ⟨_, step_of_decode_error hport hd, ?_⟩
  rw [State.answerIllegal_mark, State.withPort_mark]
  cases s.mark <;> simp

/-- Settles O12: the resets write the two units alone. -/
theorem resetLeavesTheOutsideAlone : Obligations.ResetLeavesTheOutsideAlone := by
  intro s
  refine ⟨⟨_, exec_frst s, fun _ => rfl, rfl, rfl, rfl, rfl⟩, ⟨_, exec_minit s, fun _ => rfl, rfl, rfl, rfl, rfl⟩,
    fun rest hport => ⟨_, step_of_hardReset hport, fun _ => rfl, rfl, rfl, rfl, rfl, rfl, rfl⟩⟩

/-- A step on an outside write takes it from the port and writes the backing store. -/
theorem step_of_outsideWrite {s : State} {p : Pointer} {v : Byte} {rest : List Input}
    (hport : s.port = .outsideWrite p v :: rest) : step s = .next ((s.withPort rest).outsideWrite p v) := by
  simp only [step, fetch, hport]

/-- Settles O13: the step is one write of the backing store, which only a read of the same pointer sees. -/
theorem outsideWriteChangesOneByte : Obligations.OutsideWriteChangesOneByte := by
  intro s p v rest hport
  exact ⟨_, step_of_outsideWrite hport, fun q => s.bsRead_bsWrite p q v⟩

/-- Settles O60: a command keeps the parameters and, whatever it makes of the tables, the number of slots; the other inputs
keep both. -/
theorem parametersNeverChange : Obligations.ParametersNeverChange := by
  intro s t h
  rcases step_cases s with ⟨-, hstep⟩ | ⟨cw, rest, i, -, -, hstep⟩ | ⟨cw, rest, r, -, -, hstep⟩ | ⟨rest, -, hstep⟩ |
    ⟨p, v, rest, -, hstep⟩ <;> rw [hstep] at h
  · cases h
    exact ⟨rfl, rfl⟩
  · refine ⟨(exec_cfg h).trans (s.withPort_cfg rest), ?_⟩
    rcases exec_ma h with hma | hma
    · rw [hma, State.withPort_ma]
    · exact hma.nslot_eq
  · cases h
    exact ⟨rfl, rfl⟩
  · cases h
    refine ⟨rfl, ?_⟩
    rw [State.hardReset_ma, State.resetArbiter_ma, Arbiter.nslot_reset, State.withPort_ma]
  · cases h
    exact ⟨rfl, rfl⟩

end Sys2Proof.Machine
end
